-- ==== Sys2Proof/Word.lean ====
section
/-! DEFINITION. The plainest words of the machine: a byte of the data store or of the wire, and the
level of a pin (10_state.md R21). Everything computed from them stands in Decode.lean and under
Machine/. -/

namespace Sys2Proof

/-- A byte: bit 0 is the least significant (00_scope.md R8). -/
abbrev Byte := BitVec 8

/-- A pin holds one of two values and no third one (10_state.md R21). -/
inductive Pin where
  | high
  | low
  deriving DecidableEq, Repr

/-- The value of a byte whose bits are all 1, the erased state (00_scope.md section 6, 20_memory.md
R70). -/
abbrev erasedByte : Byte := 0xFF#8

end Sys2Proof
end

