-- ==== Sys2Proof/Config.lean ====
section
/-! DEFINITION. The four construction parameters (00_scope.md section 4), their defaults
(92_eei_decisions.md D1 to D4) and which configurations are legal (00_scope.md R5). There is no
free value here: the spec states a value at every point it leaves to a model. -/

namespace Sys2Proof

/-- What a data access does past the last byte of the store (00_scope.md section 4, D4). -/
inductive EndPolicy where
  | wrap
  | fail
  deriving DecidableEq, Repr

/-- The parameters of one instance, fixed for its life (00_scope.md section 4). -/
structure Config where
  /-- `ADDR_BITS`: how many address bits Read and Write clock in (D1). -/
  addrBits : Nat
  /-- `CAPACITY`: how many bytes the data store has (D2). -/
  capacity : Nat
  /-- `WBUF_CAP`: how many bytes a Write can buffer (D3). -/
  wbufCap : Nat
  /-- `END_POLICY` (D4). -/
  endPolicy : EndPolicy
  deriving DecidableEq, Repr

/-- 00_scope.md R5: `ADDR_BITS >= 1`, `CAPACITY >= 1` and `1 <= WBUF_CAP <= CAPACITY`. -/
abbrev Config.Legal (c : Config) : Prop :=
  1 ≤ c.addrBits ∧ 1 ≤ c.capacity ∧ 1 ≤ c.wbufCap ∧ c.wbufCap ≤ c.capacity

/-- The configuration a constructor call names, each omitted parameter at its default
(70_reset_and_hazards.md R290, D1 to D4). -/
def Config.ofArguments (capacity addrBits wbufCap : Option Nat) (endPolicy : Option EndPolicy) :
    Config :=
  let bits := addrBits.getD 24
  let bytes := capacity.getD (2 ^ bits)
  { addrBits := bits
    capacity := bytes
    wbufCap := wbufCap.getD (min 256 bytes)
    endPolicy := endPolicy.getD .wrap }

/-- Every parameter omitted: 24 address bits, `2^24` bytes, a buffer of 256 bytes, `Wrap`. -/
def Config.default : Config :=
  { addrBits := 24, capacity := 16777216, wbufCap := 256, endPolicy := .wrap }

end Sys2Proof
end

