-- ==== Sys2Proof/Syntax.lean ====
section
/-! DEFINITION. The syntax of the machine: the events of the log, the commands of the dispatch
table, the host actions, the instructions (one constructor per row of spec/opcode_table.json), the
form they are written in, and the requests a host queues. -/

namespace Sys2Proof

/-- The four logged events (10_state.md R36, 47_event_log.md R241). -/
inductive Event where
  | enableToggle
  | inputToggle
  | clockPulse
  | waitForWrite
  deriving DecidableEq, Repr

/-- The four commands of the opcode dispatch table (30_encoding.md R83). -/
inductive Command where
  | write
  | read
  | writeEnable
  | chipErase
  deriving DecidableEq, Repr

/-- The three pins (10_state.md R21), as a getter names them. -/
inductive PinName where
  | chipEnable
  | serialInput
  | serialOutput
  deriving DecidableEq, Repr

/-- The seven host actions, "the entire protocol surface" (40_pin_interface.md R100): the four
that change state, each with its event, and the three getters. -/
inductive HostAction where
  | event (e : Event)
  | getter (p : PinName)
  deriving DecidableEq, Repr

/-- One constructor per row of spec/opcode_table.json. A command is the whole command between its
two chip-enable toggles (30_encoding.md R80), a host action is that one action. -/
inductive Instr where
  /-- 0x02, page program (44_write.md R190): the address, the complete data bytes, and the bits of
  a trailing partial byte (30_encoding.md R81). -/
  | write (addr : Nat) (data : List Byte) (tail : List Bool)
  /-- 0x03, read (43_read.md R170): the address and the number of data clocks. -/
  | read (addr : Nat) (clocks : Nat)
  /-- 0x06, write-enable (45_write_enable.md R220). -/
  | wren
  /-- 0x60, chip erase (46_chip_erase.md R230). -/
  | chipErase
  /-- Every other opcode (30_encoding.md R86). -/
  | unknownOpcode (op : Byte)
  /-- `e`, toggle_chip_enable (40_pin_interface.md R104). -/
  | ce
  /-- `i`, toggle_serial_input (40_pin_interface.md R108). -/
  | si
  /-- `c`, toggle_clock (40_pin_interface.md R109). -/
  | clk
  /-- `w`, wait_for_write_complete (40_pin_interface.md R114). -/
  | waitForWrite
  /-- get_chip_enable (40_pin_interface.md R101). -/
  | getChipEnable
  /-- get_serial_input (40_pin_interface.md R102). -/
  | getSerialInput
  /-- get_serial_output (40_pin_interface.md R103). -/
  | getSerialOutput
  deriving DecidableEq, Repr

/-- An instruction in its written form (30_encoding.md R88 to R93): a character of an event string, a
getter in braces, or the wire bits of one command. -/
inductive Code where
  /-- One character of an event string (30_encoding.md R88, R90). -/
  | char (ch : Char)
  /-- A getter, written in braces in a listing (30_encoding.md R90). -/
  | getter (p : PinName)
  /-- The bits of one command from its selecting to its deselecting chip-enable toggle, in the order
  they are clocked (30_encoding.md R80, R81). -/
  | frame (bits : List Bool)
  deriving DecidableEq, Repr

/-- One entry of the host's queue (log 3). An event string enters it as the events that `deserialize`
makes of it, so no character stands in the queue (47_event_log.md R245). -/
inductive Request where
  /-- One of the four logged host actions (40_pin_interface.md R100, 47_event_log.md R241). -/
  | event (e : Event)
  /-- One of the three getters (40_pin_interface.md R101 to R103). -/
  | getter (p : PinName)
  /-- The bits of one command, to be clocked in between its two chip-enable toggles (30_encoding.md
  R80, R81). -/
  | frame (bits : List Bool)
  deriving DecidableEq, Repr

/-- The six errors (60_exceptions.md R260), with the payloads of D16. The message of a
ProtocolViolation is not normative and is left out (log 13). -/
inductive Error where
  | protocolViolation
  | unknownOpcode (op : Byte)
  | notWriteEnabled
  | nonErasedWrite (index : Nat)
  | writeBufferFull
  | invalidSerialization (ch : Char)
  deriving DecidableEq, Repr

/-- What one action returns to the host: `Ok`, `Ok(pin)` for a getter, or `Err(E)` (00_scope.md
R10). -/
inductive Result where
  | ok
  | pin (p : Pin)
  | err (e : Error)
  deriving DecidableEq, Repr

end Sys2Proof
end

