-- ==== Sys2Proof/Machine/State.lean ====
section
/-! DEFINITION. The whole state of one instance (10_state.md R20), the model's own fields beside it,
the state right after reset (10_state.md R43, 70_reset_and_hazards.md R290), and why a step can
stop. -/

namespace Sys2Proof.Machine

/-- The chip phase (10_state.md R26). -/
inductive Phase where
  | deselected
  | command
  | operation
  deriving DecidableEq, Repr

/-- The address accumulator (10_state.md R33): the bits clocked so far, right-aligned, and how many.
The value is a number below `2^ADDR_BITS`, since its width is a parameter (log 14). -/
structure Addr where
  value : Nat
  count : Nat
  deriving DecidableEq, Repr

/-- A Read's transient state (10_state.md R34). -/
structure ReadOp where
  acc : Addr
  /-- Data bits driven onto `so` since the address completed. -/
  nout : Nat
  deriving DecidableEq, Repr

/-- A Write's transient state (10_state.md R35). -/
structure WriteOp where
  acc : Addr
  /-- The write buffer, `WBUF_CAP` bytes. -/
  buf : List Byte
  /-- Data bits accepted since the address completed. -/
  nin : Nat
  /-- Set by a NonErasedWrite: the commit is cancelled (44_write.md R194). -/
  aborted : Bool
  deriving DecidableEq, Repr

/-- The active operation (10_state.md R32). -/
inductive Operation where
  | read (r : ReadOp)
  | write (w : WriteOp)
  | writeEnable
  | chipErase
  deriving DecidableEq, Repr

/-- The data store (10_state.md R37), as a list of (address, byte) pairs with strictly rising
addresses. An address that is not listed reads as the byte of the nearest listed address below it,
and as 0x00, the reset contents, where none is listed below it; no entry is equal to what its address
would read as unlisted (Machine/Ops.lean, log 9). -/
abbrev Memory := List Host.Cell

/-- The state of one instance. -/
structure State where
  /-- The configuration, fixed at construction (00_scope.md section 4; log 1). -/
  cfg : Config
  /-- Chip-enable pin, inverted logic (10_state.md R22). -/
  ce : Pin
  /-- Serial-input pin (10_state.md R23). -/
  si : Pin
  /-- Serial-output pin (10_state.md R24). -/
  so : Pin
  /-- Chip phase (10_state.md R26). -/
  phase : Phase
  /-- Instruction register (10_state.md R28). -/
  ir : BitVec 8
  /-- Opcode bits still to be clocked in (10_state.md R29). -/
  irCount : Nat
  /-- Write-enable latch (10_state.md R30). -/
  wel : Bool
  /-- The active operation (10_state.md R32). -/
  op : Option Operation
  /-- The data store (10_state.md R37). -/
  store : Memory
  /-- The user-operation log, oldest event first (10_state.md R36). -/
  log : List Event
  /-- THE MODEL'S OWN: the requests the host has still to perform, the next one first (log 3). -/
  input : List Request
  /-- THE MODEL'S OWN: what the actions of the last step returned to the host, in order (log 4). -/
  returned : List Result
  deriving DecidableEq, Repr

/-- Why the machine stops. Each of the three is safe: it stops a state that no run from construction
reaches (10_state.md R27), to which the spec gives no next state (log 11). -/
inductive Fault where
  /-- Raised by a clock or a chip-enable toggle in OperationPhase when there is no active
  operation. -/
  | noActiveOperation
  /-- Raised by a clock in CommandPhase when the bit counter is not in 1..8. -/
  | bitCounterOutOfRange
  /-- Raised by a store access outside `0 .. CAPACITY-1` (20_memory.md R60). -/
  | noSuchAddress
  deriving DecidableEq, Repr

/-- Why the machine has no meaning for what it is asked. -/
inductive Refusal where
  /-- Raised by exec for an instruction without a meaning; safe. No instruction is left so. -/
  | notModelled (mnemonic : String)
  /-- Raised by every step of an instance whose configuration is illegal: the spec gives it no
  behaviour (00_scope.md R5; log 12); safe. -/
  | illegalConfiguration
  deriving DecidableEq, Repr

/-- What one host action answers: the result it returns and the state after it (00_scope.md R10), or
a stop. -/
inductive Reply where
  | done (r : Result) (t : State)
  | stuck (f : Fault)
  deriving DecidableEq, Repr

/-- Right after construction with every parameter at its default (10_state.md R43,
70_reset_and_hazards.md R290; log 2). -/
def State.reset : State :=
  { cfg := Config.default
    ce := .high
    si := .low
    so := .low
    phase := .deselected
    ir := 0x00#8
    irCount := 0
    wel := false
    op := none
    store := []
    log := []
    input := []
    returned := [] }

end Sys2Proof.Machine
end

