-- ==== Sys2Proof/Machine/Ops.lean ====
section
/-! DEFINITION. The named operations over the data store (20_memory.md R60, R61) and over the log
(47_event_log.md R240), and what an error does (60_exceptions.md R262, R263): the shared operations
every meaning is written over. There is no return from an error: the block takes no trap
(60_exceptions.md R268, R269). -/

namespace Sys2Proof.Machine

/-! ## The data store -/

/-- The byte at `i` of a store whose addresses below the first entry read `d`: the entry at the
nearest address not above `i`. -/
def Memory.readFrom (d : Byte) : Memory → Nat → Byte
  | [], _ => d
  | (a, v) :: rest, i => if i < a then d else Memory.readFrom v rest i

/-- The byte at `i`. Where nothing is listed at or below `i` it is 0x00, which construction leaves
in every byte (10_state.md R37, R43). -/
def Memory.read (m : Memory) (i : Nat) : Byte := Memory.readFrom 0x00#8 m i

/-- An entry `(a, v)` in front of `rest`, left out where `a` reads as `v` without it. -/
def Memory.entry (d : Byte) (a : Nat) (v : Byte) (rest : Memory) : Memory :=
  if v = d then rest else (a, v) :: rest

/-- From `a` on read `v`, where the byte before `a` is `b` and `rest` are the entries from `a`
on. -/
def Memory.resume (b : Byte) (a : Nat) (v : Byte) : Memory → Memory
  | [] => Memory.entry b a v []
  | (a', v') :: rest =>
      if a' = a then Memory.entry b a' v' rest else Memory.entry b a v ((a', v') :: rest)

/-- The store with byte `b` at `i`, in canonical form, where addresses below the first entry read
`d`. -/
def Memory.writeFrom (i : Nat) (b : Byte) : Byte → Memory → Memory
  | d, [] => Memory.entry d i b (Memory.resume b (i + 1) d [])
  | d, (a, v) :: rest =>
      if i < a then Memory.entry d i b (Memory.resume b (i + 1) d ((a, v) :: rest))
      else if i = a then Memory.entry d i b (Memory.resume b (i + 1) v rest)
      else (a, v) :: Memory.writeFrom i b v rest

/-- The store with byte `b` at `i` (20_memory.md R60). -/
def Memory.write (m : Memory) (i : Nat) (b : Byte) : Memory :=
  Memory.writeFrom i b 0x00#8 m

/-- The store whose `n` bytes all read 0xFF (46_chip_erase.md R231). -/
def Memory.erased (n : Nat) : Memory := [(0, erasedByte), (n, 0x00#8)]

/-- The canonical form: addresses strictly rising, no entry equal to what its address would read as
unlisted. -/
def Memory.wfFrom (lo : Nat) (d : Byte) : Memory → Bool
  | [] => true
  | (a, v) :: rest => decide (lo ≤ a) && decide (v ≠ d) && Memory.wfFrom (a + 1) v rest

/-- The canonical form of a store. -/
def Memory.wf (m : Memory) : Bool := Memory.wfFrom 0 0x00#8 m

/-- A store of `n` bytes lists nothing beyond them: from `n` on it reads as unlisted. -/
def Memory.within (n : Nat) (m : Memory) : Bool :=
  m.all (fun cell => decide (cell.1 ≤ n)) && decide (Memory.read m n = 0x00#8)

/-! ## What an action does to the state, the log and the host -/

/-- `append(e)`: the event at the end of the log (47_event_log.md R240). -/
def State.append (s : State) (e : Event) : State := { s with log := s.log ++ [e] }

/-- `ok`: the tentative next state becomes the state (00_scope.md R9). -/
def succeed (t : State) : Reply := .done .ok t

/-- RAISING AN ERROR: `Err(E)` is returned to the host, and the state is the one before the failing
action, with nothing logged (60_exceptions.md R262, R263; 00_scope.md R9). `s` is that state. -/
def raise (e : Error) (s : State) : Reply := .done (.err e) s

/-- Raising an error that keeps a change: one of the two exceptions to the rollback
(60_exceptions.md R263). `t` is the state with the change. -/
def raiseKeeping (e : Error) (t : State) : Reply := .done (.err e) t

/-- The rollback of a part that worked on a tentative state: an error leaves `s` (60_exceptions.md
R263). -/
def rollback (s : State) : Reply → Reply
  | .done (.err e) _ => raise e s
  | .done r t => .done r t
  | .stuck f => .stuck f

/-- A successful action is logged, a failed one is not (40_pin_interface.md R113). -/
def logged (e : Event) : Reply → Reply
  | .done .ok t => succeed (t.append e)
  | .done r t => .done r t
  | .stuck f => .stuck f

/-- `MemRead(i)`, for `0 <= i < CAPACITY` (20_memory.md R60). -/
def memRead (s : State) (i : Nat) : Except Fault Byte :=
  if i < s.cfg.capacity then .ok (s.store.read i) else .error .noSuchAddress

/-- `MemWrite(i, v)`, for `0 <= i < CAPACITY` (20_memory.md R60). -/
def memWrite (s : State) (i : Nat) (v : Byte) : Reply :=
  if i < s.cfg.capacity then succeed { s with store := s.store.write i v }
  else .stuck .noSuchAddress

/-- `MemWrite(i, 0xFF)` for every `i` of the store (46_chip_erase.md R231). -/
def eraseStore (s : State) : State := { s with store := Memory.erased s.cfg.capacity }

/-! ## Inspection (40_pin_interface.md R115): reads, never logged, never failing -/

/-- The whole data store, in index order. -/
def inspectStore (s : State) : List Byte :=
  (List.range s.cfg.capacity).map s.store.read

/-- The whole log, in order. -/
def inspectLog (s : State) : List Event := s.log

end Sys2Proof.Machine
end

