-- ==== Sys2Proof/Machine/ChipErase.lean ====
section
/-! DEFINITION. The ChipErase operation's handlers (46_chip_erase.md). -/

namespace Sys2Proof.Machine

/-- `erase_clock()`: "no clocked data" (46_chip_erase.md R232). -/
def eraseClock (s : State) : Reply := raise .protocolViolation s

/-- `erase_end()`: every byte 0xFF, and the latch cleared (46_chip_erase.md R231). -/
def eraseEnd (s : State) : Reply := succeed { eraseStore s with wel := false }

end Sys2Proof.Machine
end

