-- ==== Sys2Proof/WellFormed.lean ====
section
/-! DEFINITION. Which instructions are legal commands of the spec's frame table (30_encoding.md
R81) under a configuration. The machine performs the others too; they are no frame of that
table. -/

namespace Sys2Proof

/-- The four opcodes of the dispatch table (30_encoding.md R83). -/
def knownOpcodes : List Byte := [0x02#8, 0x03#8, 0x06#8, 0x60#8]

/-- An address is an `ADDR_BITS`-bit value (30_encoding.md R84); a Write carries at most `WBUF_CAP`
bytes, a trailing partial byte included, which is shorter than a byte (R81); an unknown opcode is
none of the four (R86). -/
def Instr.wellFormed (c : Config) : Instr → Bool
  | .write addr data tail =>
      decide (addr < 2 ^ c.addrBits) && decide (tail.length < 8) &&
        decide (8 * data.length + tail.length ≤ 8 * c.wbufCap)
  | .read addr _ => decide (addr < 2 ^ c.addrBits)
  | .unknownOpcode op => !knownOpcodes.contains op
  | .wren => true
  | .chipErase => true
  | .ce => true
  | .si => true
  | .clk => true
  | .waitForWrite => true
  | .getChipEnable => true
  | .getSerialInput => true
  | .getSerialOutput => true

end Sys2Proof
end

