-- ==== Sys2Proof/Decode.lean ====
section
/-! DEFINITION. The encodings of 30_encoding.md: the opcode dispatch table, the bit order of the
wire, command frames, the event alphabet; the decoder of a written instruction, total and rejecting
by name; after it the encoder. -/

namespace Sys2Proof

/-! ## Bits on the wire, most significant first -/

/-- The `n` low bits of `v`, most significant first (00_scope.md R8, 20_memory.md R62, R63). -/
def natBits : Nat → Nat → List Bool
  | 0, _ => []
  | n + 1, v => v.testBit n :: natBits n v

/-- The unsigned value of bits sent most significant first (30_encoding.md R84). -/
def bitsNat (bits : List Bool) : Nat :=
  bits.foldl (fun v b => 2 * v + b.toNat) 0

/-- The eight bits of a byte, bit 7 first (20_memory.md R62). -/
def byteBits (b : Byte) : List Bool := natBits 8 b.toNat

/-- The byte of eight bits, the first one bit 7 (30_encoding.md R85). -/
def bitsByte (bits : List Bool) : Byte := BitVec.ofNat 8 (bitsNat bits)

/-- The bits of a sequence of bytes (20_memory.md R65). -/
def bytesBits : List Byte → List Bool
  | [] => []
  | b :: bs => byteBits b ++ bytesBits bs

/-- The complete bytes of a data stream and the bits of a trailing partial byte (30_encoding.md R81,
R85). -/
def splitBytes : List Bool → List Byte × List Bool
  | b7 :: b6 :: b5 :: b4 :: b3 :: b2 :: b1 :: b0 :: rest =>
      let r := splitBytes rest
      (bitsByte [b7, b6, b5, b4, b3, b2, b1, b0] :: r.1, r.2)
  | short => ([], short)

/-! ## The opcode dispatch table (30_encoding.md R83) -/

/-- The opcode of each command (30_encoding.md R83). -/
def Command.opcode : Command → Byte
  | .write => 0x02#8
  | .read => 0x03#8
  | .writeEnable => 0x06#8
  | .chipErase => 0x60#8

/-- The lookup of a completed opcode: all eight bits are compared (30_encoding.md R82, R83), and
nothing outside the table is a command (R86). -/
def lookupOpcode (b : Byte) : Option Command :=
  if b = 0x02#8 then some .write
  else if b = 0x03#8 then some .read
  else if b = 0x06#8 then some .writeEnable
  else if b = 0x60#8 then some .chipErase
  else none

/-! ## The event alphabet (30_encoding.md R88, 47_event_log.md R241) -/

/-- The character of an event. -/
def Event.char : Event → Char
  | .enableToggle => 'e'
  | .inputToggle => 'i'
  | .clockPulse => 'c'
  | .waitForWrite => 'w'

/-- The event of a character, none outside `e i c w` (30_encoding.md R89). -/
def eventOfChar (ch : Char) : Option Event :=
  if ch = 'e' then some .enableToggle
  else if ch = 'i' then some .inputToggle
  else if ch = 'c' then some .clockPulse
  else if ch = 'w' then some .waitForWrite
  else none

/-- The ASCII code of an event's character (30_encoding.md R88; the codes are from general knowledge
there, K2). -/
def Event.ascii (e : Event) : Byte := BitVec.ofNat 8 e.char.toNat

/-! ## Decoding -/

/-- Why a code is no instruction of the table. -/
inductive DecodeError where
  /-- Fewer than eight bits: no opcode (30_encoding.md R80). -/
  | opcodeIncomplete
  /-- A Read or Write frame with fewer than `ADDR_BITS` bits after its opcode (30_encoding.md
  R81). -/
  | addressIncomplete
  /-- A frame of format `OP` with more than eight bits (30_encoding.md R81). -/
  | extraClocks
  /-- A character outside `e i c w` (30_encoding.md R89). -/
  | notAnEvent (ch : Char)
  deriving DecidableEq, Repr

/-- The command a frame of wire bits carries (30_encoding.md R81). The levels under a Read's data
clocks are ignored (R80), only their number counts. -/
def decodeFrame (c : Config) (bits : List Bool) : Except DecodeError Instr :=
  if bits.length < 8 then .error .opcodeIncomplete
  else
    let op := bitsByte (bits.take 8)
    let rest := bits.drop 8
    match lookupOpcode op with
    | some .write =>
        if rest.length < c.addrBits then .error .addressIncomplete
        else
          .ok (.write (bitsNat (rest.take c.addrBits)) (splitBytes (rest.drop c.addrBits)).1
            (splitBytes (rest.drop c.addrBits)).2)
    | some .read =>
        if rest.length < c.addrBits then .error .addressIncomplete
        else .ok (.read (bitsNat (rest.take c.addrBits)) (rest.length - c.addrBits))
    | some .writeEnable => if rest = [] then .ok .wren else .error .extraClocks
    | some .chipErase => if rest = [] then .ok .chipErase else .error .extraClocks
    | none => if rest = [] then .ok (.unknownOpcode op) else .error .extraClocks

/-- The instruction of one event (40_pin_interface.md R104, R108, R109, R114). -/
def Event.instr : Event → Instr
  | .enableToggle => .ce
  | .inputToggle => .si
  | .clockPulse => .clk
  | .waitForWrite => .waitForWrite

/-- The instruction of a getter (40_pin_interface.md R101 to R103). -/
def PinName.instr : PinName → Instr
  | .chipEnable => .getChipEnable
  | .serialInput => .getSerialInput
  | .serialOutput => .getSerialOutput

/-- The instruction a code stands for. -/
def decode (c : Config) : Code → Except DecodeError Instr
  | .char ch =>
      match eventOfChar ch with
      | some e => .ok e.instr
      | none => .error (.notAnEvent ch)
  | .getter p => .ok p.instr
  | .frame bits => decodeFrame c bits

/-- A queued request in its written form (30_encoding.md R88, R90, R81). -/
def Request.code : Request → Code
  | .event e => .char e.char
  | .getter p => .getter p
  | .frame bits => .frame bits

/-! ## Words as spec/opcode_table.json numbers them -/

/-- The wire bits of an instruction word of `nbits` bits: its bytes from the lowest on, each sent
bit 7 first (30_encoding.md R81). -/
def wordBits (nbits w : Nat) : List Bool :=
  bytesBits ((List.range ((nbits + 7) / 8)).map (fun k => BitVec.ofNat 8 (w >>> (8 * k))))

/-- Those bits with the bits of an address that the word is too short to hold, all 0 (log 3). -/
def wordFrame (c : Config) (nbits w : Nat) : List Bool :=
  let bits := wordBits nbits w
  match lookupOpcode (bitsByte (bits.take 8)) with
  | some .write => bits ++ List.replicate (8 + c.addrBits - bits.length) false
  | some .read => bits ++ List.replicate (8 + c.addrBits - bits.length) false
  | _ => bits

/-- What the decoder reads from an instruction word: a command row's word is its opcode, with
address bits 0 above it and no data, under the default configuration (log 3). -/
def decodeTableWord (nbits w : Nat) : Option Instr :=
  match decode Config.default (.frame (wordFrame Config.default nbits w)) with
  | .ok i => some i
  | .error _ => none

/-! ## Encoding -/

/-- The wire bits of a command (30_encoding.md R81). The bits under a Read's data clocks are not
looked at; they are 0 here. -/
def frameBits (c : Config) : Instr → List Bool
  | .write addr data tail =>
      byteBits Command.write.opcode ++ natBits c.addrBits addr ++ bytesBits data ++ tail
  | .read addr clocks =>
      byteBits Command.read.opcode ++ natBits c.addrBits addr ++ List.replicate clocks false
  | .wren => byteBits Command.writeEnable.opcode
  | .chipErase => byteBits Command.chipErase.opcode
  | .unknownOpcode op => byteBits op
  | .ce => []
  | .si => []
  | .clk => []
  | .waitForWrite => []
  | .getChipEnable => []
  | .getSerialInput => []
  | .getSerialOutput => []

/-- The code of an instruction: the frame of a command (30_encoding.md R81), the character of an
event (R88), a getter by its pin (R90). -/
def encode (c : Config) (i : Instr) : Code :=
  match i with
  | .write _ _ _ => .frame (frameBits c i)
  | .read _ _ => .frame (frameBits c i)
  | .wren => .frame (frameBits c i)
  | .chipErase => .frame (frameBits c i)
  | .unknownOpcode _ => .frame (frameBits c i)
  | .ce => .char Event.enableToggle.char
  | .si => .char Event.inputToggle.char
  | .clk => .char Event.clockPulse.char
  | .waitForWrite => .char Event.waitForWrite.char
  | .getChipEnable => .getter .chipEnable
  | .getSerialInput => .getter .serialInput
  | .getSerialOutput => .getter .serialOutput

end Sys2Proof
end

