-- ==== Sys2Proof/Machine/Flags.lean ====
section
/-! DEFINITION. The flags: the write-enable latch, the machine's only flag (10_state.md R30, R31),
the test a serial-input toggle makes of the log (10_state.md R36), the erased test of a Write
(44_write.md R193), and the numbers of the error codes (60_exceptions.md R260). -/

namespace Sys2Proof.Machine

/-- Which commands can be constructed only while the latch is set (41_command_decode.md R132). -/
def needsLatch : Command → Bool
  | .write => true
  | .read => false
  | .writeEnable => false
  | .chipErase => true

/-- `require_wel()` holds for a command (41_command_decode.md R132). -/
def latchAllows (s : State) (c : Command) : Bool := !needsLatch c || s.wel

/-- The last logged event is an input toggle (10_state.md R36, 40_pin_interface.md R108). -/
def lastWasInput (s : State) : Bool := decide (s.log.getLast? = some Event.inputToggle)

/-- The erased state of a byte, the only one a Write may program (20_memory.md R70). -/
def isErased (v : Byte) : Bool := decide (v = erasedByte)

/-- The numeric code of an error (60_exceptions.md R260, D16). -/
def errorCode : Error → Nat
  | .protocolViolation => 0
  | .unknownOpcode _ => 1
  | .notWriteEnabled => 2
  | .nonErasedWrite _ => 3
  | .writeBufferFull => 4
  | .invalidSerialization _ => 5

end Sys2Proof.Machine
end

