-- ==== Sys2Proof/Machine/Operands.lean ====
section
/-! DEFINITION. The operand forms: pin levels as bits (00_scope.md R9), the bit a clock writes
(41_command_decode.md R130, 44_write.md R193), the address accumulator (42_address_phase.md R151),
the byte and bit position of a data clock (20_memory.md R77) and the store index of a data byte
(20_memory.md R64). -/

namespace Sys2Proof.Machine

/-- `bit(p)`: 1 for High (00_scope.md R9). -/
def bitOf : Pin → Bool
  | .high => true
  | .low => false

/-- `pin(b)`: High for 1 (00_scope.md R9). -/
def pinOf : Bool → Pin
  | true => .high
  | false => .low

/-- A toggle swaps High and Low (40_pin_interface.md R107, 90_conflicts.md C1). -/
def toggled : Pin → Pin
  | .high => .low
  | .low => .high

/-- `v` with bit `pos` set to `b`. -/
def setBit (v : Byte) (pos : Nat) (b : Bool) : Byte :=
  (v &&& ~~~(1#8 <<< pos)) ||| (BitVec.ofBool b).setWidth 8 <<< pos

/-- One address clock: `((value << 1) | bit) mod 2^ADDR_BITS`, and one more bit counted
(42_address_phase.md R151). -/
def accumulate (c : Config) (a : Addr) (b : Bool) : Addr :=
  { value := (2 * a.value + b.toNat) % 2 ^ c.addrBits
    count := a.count + 1 }

/-- The address is still being clocked in (42_address_phase.md R150). -/
abbrev Addr.Incomplete (c : Config) (a : Addr) : Prop := a.count < c.addrBits

/-- The byte of the stream that data bit `t` belongs to (20_memory.md R77). -/
def byteIndex (t : Nat) : Nat := t / 8

/-- The bit of that byte, 7 first (20_memory.md R77). -/
def bitIndex (t : Nat) : Nat := 7 - t % 8

/-- `dest(A, k)`: the store index of byte `k` of a stream whose resolved address is `A`, or the
error of the `Fail` policy (20_memory.md R64). -/
def dest (c : Config) (addr k : Nat) : Except Error Nat :=
  match c.endPolicy with
  | .wrap => .ok ((addr + k) % c.capacity)
  | .fail => if addr + k < c.capacity then .ok (addr + k) else .error .protocolViolation

end Sys2Proof.Machine
end

