-- ==== Sys2Proof/Machine/CommandDecode.lean ====
section
/-! DEFINITION. The command decoder (41_command_decode.md): shifting an opcode bit and dispatching
the completed opcode. -/

namespace Sys2Proof.Machine

/-- An address accumulator as an operation is created with (10_state.md R33). -/
def emptyAddr : Addr := { value := 0, count := 0 }

/-- The operation a command is created with (41_command_decode.md R131, R134). -/
def newOperation (c : Config) : Command → Operation
  | .write =>
      .write { acc := emptyAddr, buf := List.replicate c.wbufCap 0x00#8, nin := 0, aborted := false }
  | .read => .read { acc := emptyAddr, nout := 0 }
  | .writeEnable => .writeEnable
  | .chipErase => .chipErase

/-- `decode(b)` on the eighth clock, where `b` is in the instruction register: UnknownOpcode, then
NotWriteEnabled, else the operation is created (41_command_decode.md R131, R132). -/
def dispatchOpcode (s : State) : Reply :=
  match lookupOpcode s.ir with
  | none => raise (.unknownOpcode s.ir) s
  | some c =>
      if latchAllows s c then
        succeed { s with op := some (newOperation s.cfg c), phase := .operation }
      else raise .notWriteEnabled s

/-- The instruction register and its counter after one more opcode bit (41_command_decode.md
R130). -/
def shiftOpcode (s : State) : State :=
  { s with
    ir := setBit s.ir (s.irCount - 1) (bitOf s.si)
    irCount := s.irCount - 1 }

/-- `command_clock()`: a clock in CommandPhase (41_command_decode.md R130). A failed eighth clock
changes nothing (R133). -/
def commandClock (s : State) : Reply :=
  if s.irCount = 0 ∨ 8 < s.irCount then .stuck .bitCounterOutOfRange
  else if s.irCount = 1 then rollback s (dispatchOpcode (shiftOpcode s))
  else succeed (shiftOpcode s)

end Sys2Proof.Machine
end

