-- ==== Sys2Proof/Machine/AddressPhase.lean ====
section
/-! DEFINITION. The address phase that Read and Write share (42_address_phase.md). -/

namespace Sys2Proof.Machine

/-- The accumulator after an address clock that samples `si` (42_address_phase.md R151). -/
def clockedAddr (s : State) (a : Addr) : Addr := accumulate s.cfg a (bitOf s.si)

/-- Reading the address: ProtocolViolation before it is complete (42_address_phase.md R153). No host
action comes here with an incomplete address: the handlers that use `acc.value` run only when it is
complete (40_pin_interface.md R117). -/
def resolvedAddress (c : Config) (a : Addr) : Except Error Nat :=
  if a.Incomplete c then .error .protocolViolation else .ok a.value

/-- `address_clock()` of a Read (42_address_phase.md R151). -/
def readAddressClock (r : ReadOp) (s : State) : Reply :=
  succeed { s with op := some (.read { r with acc := clockedAddr s r.acc }) }

/-- `address_clock()` of a Write (42_address_phase.md R151). -/
def writeAddressClock (w : WriteOp) (s : State) : Reply :=
  succeed { s with op := some (.write { w with acc := clockedAddr s w.acc }) }

/-- Chip-enable during the address phase: ProtocolViolation, "address not fully clocked in"
(42_address_phase.md R152). -/
def addressIncompleteEnd (s : State) : Reply := raise .protocolViolation s

end Sys2Proof.Machine
end

