-- ==== Sys2Proof/Machine/Read.lean ====
section
/-! DEFINITION. The Read operation's handlers (43_read.md). -/

namespace Sys2Proof.Machine

/-- `read_clock()`: drive the next data bit onto `so` (43_read.md R172). -/
def readClock (r : ReadOp) (s : State) : Reply :=
  match dest s.cfg r.acc.value (byteIndex r.nout) with
  | .error e => raise e s
  | .ok i =>
      match memRead s i with
      | .error f => .stuck f
      | .ok v =>
          succeed
            { s with
              so := pinOf (v.getLsbD (bitIndex r.nout))
              op := some (.read { r with nout := r.nout + 1 }) }

/-- `read_end()`: no effect (43_read.md R173). -/
def readEnd (s : State) : Reply := succeed s

end Sys2Proof.Machine
end

