-- ==== Sys2Proof/Machine/Write.lean ====
section
/-! DEFINITION. The Write operation's handlers (44_write.md). -/

namespace Sys2Proof.Machine

/-- A data bit is accepted: it goes into the buffer byte being filled, and the cursor moves
(44_write.md R193). -/
def acceptDataBit (w : WriteOp) (s : State) : Reply :=
  succeed
    { s with
      op := some (.write { w with
        buf := w.buf.modify (byteIndex w.nin) (fun v => setBit v (bitIndex w.nin) (bitOf s.si))
        nin := w.nin + 1 }) }

/-- NonErasedWrite at index `i`: the Write is aborted and the clock is logged, nothing else changes
(44_write.md R194). -/
def abortWrite (w : WriteOp) (i : Nat) (s : State) : Reply :=
  raiseKeeping (.nonErasedWrite i)
    (State.append { s with op := some (.write { w with aborted := true }) } .clockPulse)

/-- `write_clock()`: at the first bit of a byte WriteBufferFull, then the end of the store, then
NonErasedWrite (44_write.md R193 to R196); the other seven bits never fail. -/
def writeClock (w : WriteOp) (s : State) : Reply :=
  if w.nin % 8 = 0 then
    if s.cfg.wbufCap ≤ byteIndex w.nin then raise .writeBufferFull s
    else
      match dest s.cfg w.acc.value (byteIndex w.nin) with
      | .error e => raise e s
      | .ok i =>
          match memRead s i with
          | .error f => .stuck f
          | .ok v => if isErased v then acceptDataBit w s else abortWrite w i s
  else acceptDataBit w s

/-- The copy of the bytes `vs`, from byte `k` of the stream on, into the store (44_write.md
R197). -/
def commitFrom (addr : Nat) : Nat → List Byte → State → Reply
  | _, [], s => succeed s
  | k, v :: vs, s =>
      match dest s.cfg addr k with
      | .error e => raise e s
      | .ok i =>
          match memWrite s i v with
          | .done (.ok) t => commitFrom addr (k + 1) vs t
          | other => other

/-- The filled portion of the buffer: its complete bytes (44_write.md R197, D6). -/
def filledBytes (w : WriteOp) : List Byte := w.buf.take (byteIndex w.nin)

/-- `write_end()`: commit the filled portion unless the Write was aborted, and clear the latch
(44_write.md R197). -/
def writeEnd (w : WriteOp) (s : State) : Reply :=
  match commitFrom w.acc.value 0 (if w.aborted then [] else filledBytes w) s with
  | .done .ok t => succeed { t with wel := false }
  | other => other

end Sys2Proof.Machine
end

