-- ==== Sys2Proof/Machine/WriteEnable.lean ====
section
/-! DEFINITION. The WriteEnable operation's handlers (45_write_enable.md). -/

namespace Sys2Proof.Machine

/-- `wren_clock()`: "this operation accepts no clocked data" (45_write_enable.md R222). -/
def wrenClock (s : State) : Reply := raise .protocolViolation s

/-- `wren_end()`: ProtocolViolation if the latch is already set, else set it (45_write_enable.md
R221). -/
def wrenEnd (s : State) : Reply :=
  if s.wel then raise .protocolViolation s else succeed { s with wel := true }

end Sys2Proof.Machine
end

