-- ==== Sys2Proof/Machine/HostActions.lean ====
section
/-! DEFINITION. The seven host actions (40_pin_interface.md), a sequence of them, and the meanings of
the rows of spec/opcode_table.json that are one host action each. -/

namespace Sys2Proof.Machine

/-! ## The active operation's handlers (40_pin_interface.md R117) -/

/-- `op_on_clock()`. -/
def opOnClock (s : State) : Reply :=
  match s.op with
  | none => .stuck .noActiveOperation
  | some (.read r) =>
      if r.acc.Incomplete s.cfg then readAddressClock r s else readClock r s
  | some (.write w) =>
      if w.acc.Incomplete s.cfg then writeAddressClock w s else writeClock w s
  | some .writeEnable => wrenClock s
  | some .chipErase => eraseClock s

/-- `op_on_chip_enable()`. -/
def opOnChipEnable (s : State) : Reply :=
  match s.op with
  | none => .stuck .noActiveOperation
  | some (.read r) => if r.acc.Incomplete s.cfg then addressIncompleteEnd s else readEnd s
  | some (.write w) => if w.acc.Incomplete s.cfg then addressIncompleteEnd s else writeEnd w s
  | some .writeEnable => wrenEnd s
  | some .chipErase => eraseEnd s

/-! ## toggle_chip_enable -/

/-- `select()` (40_pin_interface.md R105). -/
def select (s : State) : State :=
  State.append { s with ce := .low, phase := .command, ir := 0x00#8, irCount := 8 } .enableToggle

/-- The deselecting part of `end_command()`: the operation is discarded, the instruction register
cleared, the chip deselected, the event logged (40_pin_interface.md R106). -/
def deselect (t : State) : State :=
  State.append { t with op := none, ir := 0x00#8, irCount := 0, phase := .deselected, ce := .high }
    .enableToggle

/-- `end_command()`: the handler's effects are kept if it succeeds and rolled back if it fails; the
chip deselects in both cases, and the handler's result is returned (40_pin_interface.md R106,
60_exceptions.md R263). -/
def endCommand (s : State) : Reply :=
  match rollback s (opOnChipEnable s) with
  | .done r t => .done r (deselect t)
  | .stuck f => .stuck f

/-- `toggle_chip_enable()` (40_pin_interface.md R104). -/
def toggleChipEnable (s : State) : Reply :=
  match s.phase with
  | .deselected => succeed (select s)
  | .command => raise .protocolViolation s
  | .operation => endCommand s

/-! ## toggle_serial_input, toggle_clock, wait_for_write_complete, the getters -/

/-- `toggle_serial_input()` (40_pin_interface.md R108): the Deselected check comes first. -/
def toggleSerialInput (s : State) : Reply :=
  if s.phase = .deselected then raise .protocolViolation s
  else if lastWasInput s then raise .protocolViolation s
  else succeed (State.append { s with si := toggled s.si } .inputToggle)

/-- `toggle_clock()` (40_pin_interface.md R109 to R112). -/
def toggleClock (s : State) : Reply :=
  match s.phase with
  | .deselected => raise .protocolViolation s
  | .command => logged .clockPulse (commandClock s)
  | .operation => logged .clockPulse (opOnClock s)

/-- `wait_for_write_complete()`: it is logged and does nothing else (40_pin_interface.md R114). -/
def waitForWriteComplete (s : State) : Reply := succeed (s.append .waitForWrite)

/-- The level of a pin (40_pin_interface.md R101 to R103). -/
def pinLevel (s : State) : PinName → Pin
  | .chipEnable => s.ce
  | .serialInput => s.si
  | .serialOutput => s.so

/-- A getter returns the level and changes nothing (40_pin_interface.md R101 to R103). -/
def readPin (p : PinName) (s : State) : Reply := .done (.pin (pinLevel s p)) s

/-! ## Performing host actions -/

/-- One logged host action (47_event_log.md R241). -/
def actEvent : Event → State → Reply
  | .enableToggle, s => toggleChipEnable s
  | .inputToggle, s => toggleSerialInput s
  | .clockPulse, s => toggleClock s
  | .waitForWrite, s => waitForWriteComplete s

/-- One host action (40_pin_interface.md R100). -/
def act : HostAction → State → Reply
  | .event e, s => actEvent e s
  | .getter p, s => readPin p s

/-- Host actions performed one after another, whatever each one returns (00_scope.md R10,
20_memory.md R72): their results in order, and the state after the last one. -/
def perform : List HostAction → State → Except Fault (List Result × State)
  | [], s => .ok ([], s)
  | a :: rest, s =>
      match act a s with
      | .stuck f => .error f
      | .done r t =>
          match perform rest t with
          | .error f => .error f
          | .ok (rs, u) => .ok (r :: rs, u)

/-- Host actions performed on an instance as one step, which returns all their results. An instance
with an illegal configuration has no behaviour (00_scope.md R5). -/
def conduct (as : List HostAction) (s : State) : Host.Outcome State Fault Refusal :=
  if s.cfg.Legal then
    match perform as s with
    | .ok (rs, t) => .next { t with returned := rs }
    | .error f => .fault f
  else .refused .illegalConfiguration

/-! ## The meanings of the host-action rows -/

/-- CE (toggle_chip_enable), 40_pin_interface.md R104. -/
def execCe (s : State) : Host.Outcome State Fault Refusal := conduct [.event .enableToggle] s

/-- SI (toggle_serial_input), 40_pin_interface.md R108. -/
def execSi (s : State) : Host.Outcome State Fault Refusal := conduct [.event .inputToggle] s

/-- CLK (toggle_clock), 40_pin_interface.md R109. -/
def execClk (s : State) : Host.Outcome State Fault Refusal := conduct [.event .clockPulse] s

/-- WAIT (wait_for_write_complete), 40_pin_interface.md R114. -/
def execWaitForWrite (s : State) : Host.Outcome State Fault Refusal :=
  conduct [.event .waitForWrite] s

/-- get_chip_enable, 40_pin_interface.md R101. -/
def execGetChipEnable (s : State) : Host.Outcome State Fault Refusal :=
  conduct [.getter .chipEnable] s

/-- get_serial_input, 40_pin_interface.md R102. -/
def execGetSerialInput (s : State) : Host.Outcome State Fault Refusal :=
  conduct [.getter .serialInput] s

/-- get_serial_output, 40_pin_interface.md R103. -/
def execGetSerialOutput (s : State) : Host.Outcome State Fault Refusal :=
  conduct [.getter .serialOutput] s

end Sys2Proof.Machine
end

