-- ==== Sys2Proof/Machine/Commands.lean ====
section
/-! DEFINITION. The commands as host actions: the pseudo-instructions of 30_encoding.md R93 and the
meanings of the command rows of spec/opcode_table.json. A command is everything between its two
chip-enable toggles (30_encoding.md R80); its meaning performs those host actions one after another,
whatever each one returns (log 6). -/

namespace Sys2Proof.Machine

/-- `SEND`: the actions that clock in `bits` when `si` is at the tracked level (30_encoding.md R92,
R93). -/
def send : Pin → List Bool → List HostAction
  | _, [] => []
  | level, b :: bs =>
      if bitOf level = b then .event .clockPulse :: send level bs
      else .event .inputToggle :: .event .clockPulse :: send (toggled level) bs

/-- `RECV(n)`: `n` clocks, `so` read after each (30_encoding.md R93). -/
def recv : Nat → List HostAction
  | 0 => []
  | n + 1 => .event .clockPulse :: .getter .serialOutput :: recv n

/-- The host actions of a frame of wire bits: select, clock the bits in, deselect. -/
def frameActions (level : Pin) (bits : List Bool) : List HostAction :=
  .event .enableToggle :: (send level bits ++ [.event .enableToggle])

/-- The host actions of a Read: its opcode and address are sent, its data received. -/
def readActions (c : Config) (level : Pin) (addr clocks : Nat) : List HostAction :=
  .event .enableToggle ::
    (send level (byteBits Command.read.opcode ++ natBits c.addrBits addr) ++
      (recv clocks ++ [.event .enableToggle]))

/-- WRITE, 44_write.md R190. -/
def execWrite (addr : Nat) (data : List Byte) (tail : List Bool) (s : State) :
    Host.Outcome State Fault Refusal :=
  conduct (frameActions s.si (frameBits s.cfg (.write addr data tail))) s

/-- READ, 43_read.md R170. -/
def execRead (addr clocks : Nat) (s : State) : Host.Outcome State Fault Refusal :=
  conduct (readActions s.cfg s.si addr clocks) s

/-- WREN, 45_write_enable.md R220. -/
def execWren (s : State) : Host.Outcome State Fault Refusal :=
  conduct (frameActions s.si (frameBits s.cfg .wren)) s

/-- CHIP_ERASE, 46_chip_erase.md R230. -/
def execChipErase (s : State) : Host.Outcome State Fault Refusal :=
  conduct (frameActions s.si (frameBits s.cfg .chipErase)) s

/-- UNKNOWN_OPCODE, 30_encoding.md R86. -/
def execUnknownOpcode (op : Byte) (s : State) : Host.Outcome State Fault Refusal :=
  conduct (frameActions s.si (frameBits s.cfg (.unknownOpcode op))) s

end Sys2Proof.Machine
end

