-- ==== Sys2Proof/Machine/Dispatch.lean ====
section
/-! DEFINITION. One arm per instruction, each one direct call of its meaning. -/

namespace Sys2Proof.Machine

def exec (i : Instr) (s : State) : Host.Outcome State Fault Refusal :=
  match i with
  | .write addr data tail => Sys2Proof.Machine.execWrite addr data tail s
  | .read addr clocks => Sys2Proof.Machine.execRead addr clocks s
  | .wren => Sys2Proof.Machine.execWren s
  | .chipErase => Sys2Proof.Machine.execChipErase s
  | .unknownOpcode op => Sys2Proof.Machine.execUnknownOpcode op s
  | .ce => Sys2Proof.Machine.execCe s
  | .si => Sys2Proof.Machine.execSi s
  | .clk => Sys2Proof.Machine.execClk s
  | .waitForWrite => Sys2Proof.Machine.execWaitForWrite s
  | .getChipEnable => Sys2Proof.Machine.execGetChipEnable s
  | .getSerialInput => Sys2Proof.Machine.execGetSerialInput s
  | .getSerialOutput => Sys2Proof.Machine.execGetSerialOutput s

end Sys2Proof.Machine
end

