-- ==== Sys2Proof/Machine/Fetch.lean ====
section
/-! DEFINITION. Where the next instruction comes from. The block has no program counter and fetches
nothing (10_state.md R39); what it does next is the host's next request (00_scope.md R3), which the
model holds in `input` (log 3). -/

namespace Sys2Proof.Machine

/-- The host's next request, and the state with it taken from the queue. -/
def nextRequest (s : State) : Option (Request × State) :=
  match s.input with
  | [] => none
  | r :: rest => some (r, { s with input := rest })

/-- No request: nothing happens between host actions (60_exceptions.md R267), and nothing is
returned (log 5). -/
def idle (s : State) : Host.Outcome State Fault Refusal :=
  if s.cfg.Legal then .next { s with returned := [] } else .refused .illegalConfiguration

/-- The host actions a request is, from a level of `si`: the action itself, or a frame's SEND between
its two chip-enable toggles (30_encoding.md R80, R93). -/
def requestActions (level : Pin) : Request → List HostAction
  | .event e => [.event e]
  | .getter p => [.getter p]
  | .frame bits => frameActions level bits

/-- A request that is no instruction of the table, which only a frame can be (log 10): a frame that
matches no format of 30_encoding.md R81 is performed all the same, selected, clocked in bit by bit,
deselected. -/
def performUndecoded (r : Request) (s : State) : Host.Outcome State Fault Refusal :=
  conduct (requestActions s.si r) s

/-- The request that carries an instruction word. -/
def wordRequest (c : Config) (nbits w : Nat) : Request := .frame (wordFrame c nbits w)

end Sys2Proof.Machine
end

