-- ==== Sys2Proof/Machine/Step.lean ====
section
/-! DEFINITION. One step: the host's next request is taken, decoded and performed. -/

namespace Sys2Proof.Machine

/-- One step of the machine (00_scope.md R10). -/
def step (s : State) : Host.Outcome State Fault Refusal :=
  match nextRequest s with
  | none => idle s
  | some (r, t) =>
      match decode t.cfg r.code with
      | .ok i => exec i t
      | .error _ => performUndecoded r t

/-- The state with an instruction word queued as the host's next request. -/
def State.withFetchWord (s : State) (nbits w : Nat) : State :=
  { s with input := wordRequest s.cfg nbits w :: s.input }

end Sys2Proof.Machine
end

