-- ==== Sys2Proof/Machine/Construct.lean ====
section
/-! DEFINITION. Construction, the only reset (70_reset_and_hazards.md R290, R291). -/

namespace Sys2Proof.Machine

/-- A fresh instance of a configuration: every field as 10_state.md R43 says. -/
def freshState (c : Config) : State := { State.reset with cfg := c }

/-- `construct`: an illegal configuration yields no instance (70_reset_and_hazards.md R290,
00_scope.md R5). -/
def construct (c : Config) : Option State := if c.Legal then some (freshState c) else none

/-- A constructor call with parameters that may be omitted (70_reset_and_hazards.md R290). -/
def constructWith (capacity addrBits wbufCap : Option Nat) (endPolicy : Option EndPolicy) :
    Option State :=
  construct (Config.ofArguments capacity addrBits wbufCap endPolicy)

end Sys2Proof.Machine
end

