-- ==== Sys2Proof/Machine/EventLog.lean ====
section
/-! DEFINITION. Serialization, replay and programs as event strings (47_event_log.md, 30_encoding.md
R90). These are utilities of the host: they touch no state of an instance (47_event_log.md R245), but
for the host's own queue of requests. -/

namespace Sys2Proof.Machine

/-- `serialize(log)` (47_event_log.md R242). -/
def serialize : List Event → List Char
  | [] => []
  | e :: rest => e.char :: serialize rest

/-- `deserialize(string)`: InvalidSerialization at the first character outside `e i c w`, with no
partial list (47_event_log.md R243). -/
def deserialize : List Char → Except Error (List Event)
  | [] => .ok []
  | ch :: rest =>
      match eventOfChar ch with
      | none => .error (.invalidSerialization ch)
      | some e =>
          match deserialize rest with
          | .error x => .error x
          | .ok es => .ok (e :: es)

/-- An event string queued as the host's program (30_encoding.md R90). A string that does not
deserialize is refused whole and the state is as it was; nothing else lets a character in
(47_event_log.md R243, R245). -/
def loadProgram (text : List Char) (s : State) : Reply :=
  match deserialize text with
  | .error x => raise x s
  | .ok es => succeed { s with input := s.input ++ es.map Request.event }

/-- The events of a list performed in order, one action per event (47_event_log.md R246): the
results, and the state after the last one. -/
def replay (es : List Event) (s : State) : Except Fault (List Result × State) :=
  perform (es.map HostAction.event) s

end Sys2Proof.Machine
end

