-- ==== Sys2Proof/Safety.lean ====
section
/-! DEFINITION. The terms claims are stated in: the invariant of 10_state.md R27, the programming law
of 20_memory.md R70, error-free and closed runs (70_reset_and_hazards.md R304), the stuck instance
(R301). -/

namespace Sys2Proof.Machine

/-! ## The invariant of every reachable state (10_state.md R27, R33 to R35) -/

/-- The accumulator holds `count` bits, at most `ADDR_BITS` (10_state.md R33). -/
def addrOk (c : Config) (a : Addr) : Bool :=
  decide (a.count ≤ c.addrBits) && decide (a.value < 2 ^ a.count)

/-- Byte `k` of a stream at `addr` has a destination, and that byte of the store is erased. -/
def destErased (s : State) (addr k : Nat) : Bool :=
  match dest s.cfg addr k with
  | .ok i => isErased (s.store.read i)
  | .error _ => false

/-- A Write's destinations from byte `0` to the byte being filled are all erased: what each was
checked to be (20_memory.md R70). -/
def startedErased (s : State) (w : WriteOp) : Bool :=
  (List.range ((w.nin + 7) / 8)).all (destErased s w.acc.value)

/-- A Write's own invariant (10_state.md R35, 20_memory.md R70). -/
def writeOk (s : State) (w : WriteOp) : Bool :=
  addrOk s.cfg w.acc && decide (w.acc.Incomplete s.cfg → w.nin = 0) &&
    decide (w.buf.length = s.cfg.wbufCap) && decide (w.nin ≤ 8 * s.cfg.wbufCap) &&
    startedErased s w

/-- The active operation is the one the opcode in `ir` selects, and a Write or ChipErase holds the
latch set (10_state.md R27, R30). -/
def operationOk (s : State) : Bool :=
  match s.op with
  | none => false
  | some (.read r) =>
      decide (s.ir = 0x03#8) && addrOk s.cfg r.acc &&
        decide (r.acc.Incomplete s.cfg → r.nout = 0)
  | some (.write w) => decide (s.ir = 0x02#8) && s.wel && writeOk s w
  | some .writeEnable => decide (s.ir = 0x06#8)
  | some .chipErase => decide (s.ir = 0x60#8) && s.wel

/-- The bits of the instruction register that are not clocked yet are zero (10_state.md R27). -/
def unclockedClear (ir : BitVec 8) (n : Nat) : Bool :=
  (List.range n).all (fun j => !ir.getLsbD j)

/-- What 10_state.md R27 says of each phase. -/
def phaseOk (s : State) : Bool :=
  match s.phase with
  | .deselected =>
      decide (s.ce = .high) && s.op.isNone && decide (s.ir = 0x00#8) && decide (s.irCount = 0)
  | .command =>
      decide (s.ce = .low) && s.op.isNone && decide (1 ≤ s.irCount) && decide (s.irCount ≤ 8) &&
        unclockedClear s.ir s.irCount
  | .operation => decide (s.ce = .low) && decide (s.irCount = 0) && operationOk s

/-- The invariant every reachable state satisfies (10_state.md R27), with the legal configuration
(00_scope.md R5) and the canonical form of the store. -/
abbrev State.Inv (s : State) : Prop :=
  s.cfg.Legal ∧ phaseOk s = true ∧ s.store.wf = true ∧ s.store.within s.cfg.capacity = true

/-! ## Pins and the log -/

/-- How often an event stands in the log. -/
def countEvent (e : Event) (log : List Event) : Nat := log.countP (fun x => decide (x = e))

/-- Each pin the host toggles is at its level after construction flipped once per logged toggle
(10_state.md R22, R23, R43). -/
abbrev State.PinsFollowLog (s : State) : Prop :=
  (s.ce = .low ↔ countEvent .enableToggle s.log % 2 = 1) ∧
    (s.si = .high ↔ countEvent .inputToggle s.log % 2 = 1)

/-! ## Runs (70_reset_and_hazards.md R304) -/

/-- A run from construction: the events performed on a fresh instance of a legal configuration. -/
def runsTo (c : Config) (es : List Event) (rs : List Result) (s : State) : Prop :=
  c.Legal ∧ replay es (freshState c) = .ok (rs, s)

/-- A result that reports an error. -/
def reportsError : Result → Bool
  | .ok => false
  | .pin _ => false
  | .err _ => true

/-- No action of a step or run returned an error. -/
def errorFree (rs : List Result) : Bool := rs.all (fun r => !reportsError r)

/-- The bit a getter's result carries, none for any other result (00_scope.md R9, R10). -/
def pinBit : Result → Option Bool
  | .ok => none
  | .pin p => some (bitOf p)
  | .err _ => none

/-- The request that asks for one host action alone (30_encoding.md R88, R90; log 3). -/
def hostRequest : HostAction → Request
  | .event e => .event e
  | .getter p => .getter p

/-- The entries of a list that a list of marks keeps. -/
def picked {α : Type} : List Bool → List α → List α
  | true :: marks, x :: xs => x :: picked marks xs
  | false :: marks, _ :: xs => picked marks xs
  | _, _ => []

/-- A run is closed when its end state is Deselected (70_reset_and_hazards.md R304). -/
abbrev State.Closed (s : State) : Prop := s.phase = .deselected

/-! ## The stuck instance (70_reset_and_hazards.md R301) -/

/-- Completing the opcode with bit 0 at level `b` fails (41_command_decode.md R133). -/
def completionFails (s : State) (b : Bool) : Bool :=
  match lookupOpcode (setBit s.ir 0 b) with
  | none => true
  | some c => !latchAllows s c

/-- Both completions of the opcode fail. -/
abbrev State.StuckInstance (s : State) : Prop :=
  s.phase = .command ∧ s.irCount = 1 ∧ completionFails s false = true ∧
    completionFails s true = true

/-! ## A Write's stream -/

/-- The store with the bytes `vs` programmed at the destinations of bytes `k`, `k + 1`, … of a
stream at `addr` (44_write.md R197); a byte without a destination is left out. -/
def programmed (c : Config) (addr : Nat) : Nat → List Byte → Memory → Memory
  | _, [], m => m
  | k, v :: vs, m =>
      match dest c addr k with
      | .ok i => programmed c addr (k + 1) vs (m.write i v)
      | .error _ => programmed c addr (k + 1) vs m

/-- The level of `so` that data clock `t` of a Read at `addr` drives (30_encoding.md R81, 43_read.md
R172). -/
def streamLevel (s : State) (addr t : Nat) : Pin :=
  match dest s.cfg addr (byteIndex t) with
  | .ok i => pinOf ((s.store.read i).getLsbD (bitIndex t))
  | .error _ => s.so

/-- The events among host actions: what they append to the log when each succeeds
(40_pin_interface.md R113). -/
def eventsOf : List HostAction → List Event
  | [] => []
  | .event e :: rest => e :: eventsOf rest
  | .getter _ :: rest => eventsOf rest

/-- The level of `si` after bits were clocked in from a level (30_encoding.md R93). -/
def levelAfter (level : Pin) : List Bool → Pin
  | [] => level
  | b :: bs => levelAfter (pinOf b) bs

/-- The results of a Read's data clocks, each followed by the level the getter returns
(30_encoding.md R93), from data bit `t` on. -/
def streamResults (s : State) (addr : Nat) : Nat → Nat → List Result
  | _, 0 => []
  | t, n + 1 => .ok :: .pin (streamLevel s addr t) :: streamResults s addr (t + 1) n

end Sys2Proof.Machine
end

