-- ==== Sys2Proof/Certificates/Slice0/Obligations.lean ====
section
/-! DEFINITION. What is claimed of the model. A statement's docstring names the rule of spec/ it
formalises; where the spec marks the point as its own decision (D<n> of 92_eei_decisions.md) or as
derived, or where the model chose (log <n>, notes/assumptions/<n>.md), the docstring says so. -/

open Sys2Proof Sys2Proof.Machine

/-! ## Construction, and what a step is -/

/-- 70_reset_and_hazards.md, construction: a legal configuration gives an instance in the reset
state, an illegal one gives none, and with every parameter omitted it is State.reset. `so`, `ir` and
`irCount` are the spec's decisions D11 and D12, the defaults D1 to D4; that State.reset takes the
defaults is log 2. -/
def Obligations.ConstructionStartsAtReset : Prop :=
  (∀ c : Config, c.Legal →
    ∃ s, construct c = some s ∧ s.cfg = c ∧ s.phase = .deselected ∧ s.ce = .high ∧ s.si = .low ∧
      s.wel = false ∧ s.op = none ∧ s.log = [] ∧
      (∀ i, i < c.capacity → s.store.read i = 0x00#8) ∧
      s.so = .low ∧ s.ir = 0x00#8 ∧ s.irCount = 0) ∧
  (∀ c : Config, ¬c.Legal → construct c = none) ∧
  constructWith none none none none = some State.reset

/-- 00_scope.md, legal configurations (decisions D1 to D3): an instance with an illegal one has no
behaviour; the model refuses by name (log 12). -/
def Obligations.IllegalConfigurationIsRefused : Prop :=
  ∀ s : State, ¬s.cfg.Legal →
    step s = .refused .illegalConfiguration ∧
      ∀ i : Instr, exec i s = .refused .illegalConfiguration

/-- 60_exceptions.md: "there is no notion of background progress". Without a request the state stays
as it is; that a step of the model is possible then, and returns nothing, is log 5. -/
def Obligations.NothingHappensWithoutARequest : Prop :=
  ∀ s : State, s.cfg.Legal → s.input = [] → step s = .next { s with returned := [] }

/-- A step takes the host's next request and runs the instruction it decodes to. An event and a getter
always decode, to their own row of the opcode table; a frame that matches no format is performed bit by
bit. The queue of requests is the model's (logs 3 and 10). -/
def Obligations.StepRunsTheDecodedInstruction : Prop :=
  ∀ (s : State) (r : Request) (rest : List Request), s.input = r :: rest →
    (∀ i, decode s.cfg r.code = .ok i → step s = exec i { s with input := rest }) ∧
    (∀ e, r = .event e → step s = exec e.instr { s with input := rest }) ∧
    (∀ p, r = .getter p → step s = exec p.instr { s with input := rest }) ∧
    (∀ bits e, r = .frame bits → decode s.cfg r.code = .error e →
      step s = conduct (frameActions s.si bits) { s with input := rest })

/-- An instruction word placed by withFetchWord is the next thing the machine runs (log 3). -/
def Obligations.PlacedWordRunsNext : Prop :=
  ∀ (s : State) (nbits w : Nat) (i : Instr), s.cfg = Config.default →
    decodeTableWord nbits w = some i → step (s.withFetchWord nbits w) = exec i s

/-! ## Encoding (30_encoding.md) -/

/-- 30_encoding.md, opcode map: the four opcodes and nothing else, all eight bits compared. -/
def Obligations.DispatchTableHasFourOpcodes : Prop :=
  lookupOpcode 0x02#8 = some .write ∧ lookupOpcode 0x03#8 = some .read ∧
    lookupOpcode 0x06#8 = some .writeEnable ∧ lookupOpcode 0x60#8 = some .chipErase ∧
    ∀ b : Byte, b ≠ 0x02#8 → b ≠ 0x03#8 → b ≠ 0x06#8 → b ≠ 0x60#8 → lookupOpcode b = none

/-- A few codes decode to the instructions they stand for. The two frames and the event characters are
written out from 30_encoding.md sections 1 and 5, the opcode words 0x06, 0x60 and 0x9F from section 2.
The opcode words 0x02 and 0x03 are shorter than a Write and a Read frame: that decodeTableWord completes
them with address bits 0, and so reads address 0 and no data, is the model's choice (log 3). -/
def Obligations.WrittenOutWordsDecode : Prop :=
  decodeTableWord 8 0x02 = some (.write 0 [] []) ∧ decodeTableWord 8 0x03 = some (.read 0 0) ∧
    decodeTableWord 8 0x06 = some .wren ∧ decodeTableWord 8 0x60 = some .chipErase ∧
    decodeTableWord 8 0x9F = some (.unknownOpcode 0x9F#8) ∧
    decode { Config.default with addrBits := 12 }
        (.frame [false, false, false, false, false, false, true, true,
          false, false, false, false, false, false, false, true, false, false, false, false,
          true, false, true]) = .ok (.read 0x010 3) ∧
    decode { Config.default with addrBits := 4 }
        (.frame [false, false, false, false, false, false, true, false, false, true, true, true,
          true, false, true, false, false, true, false, true, true, true]) =
      .ok (.write 7 [0xA5#8] [true, true]) ∧
    decode Config.default (.char 'e') = .ok .ce ∧ decode Config.default (.char 'i') = .ok .si ∧
    decode Config.default (.char 'c') = .ok .clk ∧
    decode Config.default (.char 'w') = .ok .waitForWrite ∧
    decode Config.default (.char 'x') = .error (.notAnEvent 'x')

/-- 30_encoding.md, command frames and event alphabet: decoding the code that encodes a
well-formed instruction gives the instruction back, under every configuration. -/
def Obligations.DecodeOfEncodeIsTheInstruction : Prop :=
  ∀ (c : Config) (i : Instr), i.wellFormed c = true → decode c (encode c i) = .ok i

/-- 30_encoding.md, command frames: a frame that decodes is the frame of what it decodes to; of a
Read's data clocks only the number is kept (log 8). -/
def Obligations.DecodedFrameEncodesBack : Prop :=
  ∀ (c : Config) (bits : List Bool) (i : Instr), decodeFrame c bits = .ok i →
    ((∀ addr clocks, i ≠ .read addr clocks) → frameBits c i = bits) ∧
    (∀ addr clocks, i = .read addr clocks →
      frameBits c i = bits.take (8 + c.addrBits) ++ List.replicate clocks false ∧
        bits.length = 8 + c.addrBits + clocks) ∧
    (∀ addr data tail, i = .write addr data tail → addr < 2 ^ c.addrBits ∧ tail.length < 8) ∧
    (∀ addr clocks, i = .read addr clocks → addr < 2 ^ c.addrBits)

/-! ## Host actions: what each does to the whole state -/

/-- 40_pin_interface.md R105: selecting the chip. -/
def Obligations.ChipEnableSelectsDeselectedChip : Prop :=
  ∀ s : State, s.cfg.Legal → s.phase = .deselected →
    exec .ce s = .next
      { s with
        ce := .low, phase := .command, ir := 0x00#8, irCount := 8
        log := s.log ++ [.enableToggle], returned := [.ok] }

/-- 40_pin_interface.md, toggle_chip_enable: a command cannot be ended before its opcode is
complete. -/
def Obligations.ChipEnableMidOpcodeFails : Prop :=
  ∀ s : State, s.cfg.Legal → s.phase = .command →
    exec .ce s = .next { s with returned := [.err .protocolViolation] }

/-- 40_pin_interface.md, toggle_serial_input: the Deselected check, then the last event of the log
(decision D14), then the flip. -/
def Obligations.SerialInputToggleFlipsOrFails : Prop :=
  ∀ s : State, s.cfg.Legal →
    exec .si s = .next
      (if s.phase = .deselected then { s with returned := [.err .protocolViolation] }
      else if s.log.getLast? = some .inputToggle then
        { s with returned := [.err .protocolViolation] }
      else
        { s with
          si := if s.si = .high then .low else .high
          log := s.log ++ [.inputToggle], returned := [.ok] })

/-- 40_pin_interface.md, wait_for_write_complete (decision D13): it is logged, in any phase, and
changes nothing else. -/
def Obligations.WaitOnlyLogs : Prop :=
  ∀ s : State, s.cfg.Legal →
    exec .waitForWrite s = .next { s with log := s.log ++ [.waitForWrite], returned := [.ok] }

/-- 40_pin_interface.md, the getters (decision D21): each returns its pin's level, in any phase, and
changes nothing. -/
def Obligations.GettersReturnThePins : Prop :=
  ∀ s : State, s.cfg.Legal →
    exec .getChipEnable s = .next { s with returned := [.pin s.ce] } ∧
      exec .getSerialInput s = .next { s with returned := [.pin s.si] } ∧
      exec .getSerialOutput s = .next { s with returned := [.pin s.so] }

/-- 40_pin_interface.md R110: a clock while deselected. -/
def Obligations.ClockWhileDeselectedFails : Prop :=
  ∀ s : State, s.cfg.Legal → s.phase = .deselected →
    exec .clk s = .next { s with returned := [.err .protocolViolation] }

/-- 41_command_decode.md R130, R131: a clock in CommandPhase writes the level of `si` into bit
`irCount - 1` and no other; the eighth one dispatches the completed opcode; a failed one changes
nothing. -/
def Obligations.CommandClockShiftsAndDispatches : Prop :=
  ∀ s : State, s.cfg.Legal → s.phase = .command → 1 ≤ s.irCount → s.irCount ≤ 8 →
    (∀ j, (setBit s.ir (s.irCount - 1) (bitOf s.si)).getLsbD j =
      if j = s.irCount - 1 then bitOf s.si else s.ir.getLsbD j) ∧
    (1 < s.irCount →
      exec .clk s = .next
        { s with
          ir := setBit s.ir (s.irCount - 1) (bitOf s.si), irCount := s.irCount - 1
          log := s.log ++ [.clockPulse], returned := [.ok] }) ∧
    (s.irCount = 1 → ∀ b, b = setBit s.ir 0 (bitOf s.si) →
      exec .clk s = .next
        (if b = 0x03#8 then
          { s with
            ir := b, irCount := 0, phase := .operation
            op := some (.read { acc := { value := 0, count := 0 }, nout := 0 })
            log := s.log ++ [.clockPulse], returned := [.ok] }
        else if b = 0x06#8 then
          { s with
            ir := b, irCount := 0, phase := .operation, op := some .writeEnable
            log := s.log ++ [.clockPulse], returned := [.ok] }
        else if b = 0x02#8 then
          if s.wel then
            { s with
              ir := b, irCount := 0, phase := .operation
              op := some (.write
                { acc := { value := 0, count := 0 }, buf := List.replicate s.cfg.wbufCap 0x00#8
                  nin := 0, aborted := false })
              log := s.log ++ [.clockPulse], returned := [.ok] }
          else { s with returned := [.err .notWriteEnabled] }
        else if b = 0x60#8 then
          if s.wel then
            { s with
              ir := b, irCount := 0, phase := .operation, op := some .chipErase
              log := s.log ++ [.clockPulse], returned := [.ok] }
          else { s with returned := [.err .notWriteEnabled] }
        else { s with returned := [.err (.unknownOpcode b)] }))

/-- 42_address_phase.md R151: an address clock of a Read or a Write shifts one bit into the
accumulator and changes nothing else; the modulus never drops a 1 bit. -/
def Obligations.AddressClockAccumulates : Prop :=
  ∀ s : State, s.cfg.Legal → s.phase = .operation →
    (∀ r : ReadOp, s.op = some (.read r) → r.acc.count < s.cfg.addrBits →
      exec .clk s = .next
        { s with
          op := some (.read
            { r with
              acc :=
                { value := (2 * r.acc.value + (bitOf s.si).toNat) % 2 ^ s.cfg.addrBits
                  count := r.acc.count + 1 } })
          log := s.log ++ [.clockPulse], returned := [.ok] }) ∧
    (∀ w : WriteOp, s.op = some (.write w) → w.acc.count < s.cfg.addrBits →
      exec .clk s = .next
        { s with
          op := some (.write
            { w with
              acc :=
                { value := (2 * w.acc.value + (bitOf s.si).toNat) % 2 ^ s.cfg.addrBits
                  count := w.acc.count + 1 } })
          log := s.log ++ [.clockPulse], returned := [.ok] }) ∧
    (∀ (a : Addr) (b : Bool), a.value < 2 ^ a.count → a.count < s.cfg.addrBits →
      2 * a.value + b.toNat < 2 ^ s.cfg.addrBits)

/-- 20_memory.md, the index of a stream's byte (decision D4): under Wrap the sum modulo the
capacity; under Fail the sum, or ProtocolViolation from the capacity on. The index always lies in the
store. -/
def Obligations.DestinationFollowsEndPolicy : Prop :=
  ∀ (c : Config) (addr k : Nat), c.Legal →
    (c.endPolicy = .wrap → dest c addr k = .ok ((addr + k) % c.capacity)) ∧
    (c.endPolicy = .fail → addr + k < c.capacity → dest c addr k = .ok (addr + k)) ∧
    (c.endPolicy = .fail → c.capacity ≤ addr + k → dest c addr k = .error .protocolViolation) ∧
    (∀ i, dest c addr k = .ok i → i < c.capacity)

/-- 43_read.md, the read data clock (decision D4): it drives bit `7 - (nout mod 8)` of the byte at
the destination of byte `nout div 8` onto `so` and advances the cursor; past the end under Fail it
returns ProtocolViolation and changes nothing. -/
def Obligations.ReadClockDrivesSerialOutput : Prop :=
  ∀ (s : State) (r : ReadOp), s.cfg.Legal → s.phase = .operation → s.op = some (.read r) →
    s.cfg.addrBits ≤ r.acc.count →
    (∀ i, dest s.cfg r.acc.value (r.nout / 8) = .ok i →
      exec .clk s = .next
        { s with
          so := if (s.store.read i).getLsbD (7 - r.nout % 8) then .high else .low
          op := some (.read { r with nout := r.nout + 1 })
          log := s.log ++ [.clockPulse], returned := [.ok] }) ∧
    (∀ e, dest s.cfg r.acc.value (r.nout / 8) = .error e →
      exec .clk s = .next { s with returned := [.err .protocolViolation] })

/-- 44_write.md, the write data clock (decisions D4, D5, D9, D15): at the first bit of a byte
WriteBufferFull, then the end of the store, then NonErasedWrite, which aborts the Write and is logged;
else the bit goes into the buffer and the cursor advances. -/
def Obligations.WriteClockBuffersOrFails : Prop :=
  ∀ (s : State) (w : WriteOp) (accepted : State), s.cfg.Legal → s.phase = .operation →
    s.op = some (.write w) → s.cfg.addrBits ≤ w.acc.count →
    accepted =
      { s with
        op := some (.write
          { w with
            buf := w.buf.modify (w.nin / 8) (fun v => setBit v (7 - w.nin % 8) (bitOf s.si))
            nin := w.nin + 1 })
        log := s.log ++ [.clockPulse], returned := [.ok] } →
    (w.nin % 8 ≠ 0 → exec .clk s = .next accepted) ∧
    (w.nin % 8 = 0 → s.cfg.wbufCap ≤ w.nin / 8 →
      exec .clk s = .next { s with returned := [.err .writeBufferFull] }) ∧
    (w.nin % 8 = 0 → w.nin / 8 < s.cfg.wbufCap →
      (∀ e, dest s.cfg w.acc.value (w.nin / 8) = .error e →
        exec .clk s = .next { s with returned := [.err .protocolViolation] }) ∧
      (∀ i, dest s.cfg w.acc.value (w.nin / 8) = .ok i →
        (s.store.read i ≠ 0xFF#8 →
          exec .clk s = .next
            { s with
              op := some (.write { w with aborted := true })
              log := s.log ++ [.clockPulse], returned := [.err (.nonErasedWrite i)] }) ∧
        (s.store.read i = 0xFF#8 → exec .clk s = .next accepted)))

/-- 45_write_enable.md R222 and 46_chip_erase.md R232: a clock during a WriteEnable or a ChipErase
is a ProtocolViolation, and the operation survives it. -/
def Obligations.OpcodeOnlyCommandsRejectClocks : Prop :=
  ∀ s : State, s.cfg.Legal → s.phase = .operation →
    s.op = some .writeEnable ∨ s.op = some .chipErase →
    exec .clk s = .next { s with returned := [.err .protocolViolation] }

/-! ## Ending a command -/

/-- 42_address_phase.md and decision D10: a Read or Write ended during its address returns
ProtocolViolation, and the chip still deselects, discards the operation and logs the event; the latch
and the store stay as they are. -/
def Obligations.EndDuringAddressDeselects : Prop :=
  ∀ s : State, s.cfg.Legal → s.phase = .operation →
    ((∃ r : ReadOp, s.op = some (.read r) ∧ r.acc.count < s.cfg.addrBits) ∨
      ∃ w : WriteOp, s.op = some (.write w) ∧ w.acc.count < s.cfg.addrBits) →
    exec .ce s = .next
      { s with
        op := none, ir := 0x00#8, irCount := 0, phase := .deselected, ce := .high
        log := s.log ++ [.enableToggle], returned := [.err .protocolViolation] }

/-- 43_read.md, read_end, with 40_pin_interface.md's end_command (decision D10): the read ends, at
any bit, and nothing else changes. -/
def Obligations.EndOfReadDeselects : Prop :=
  ∀ (s : State) (r : ReadOp), s.cfg.Legal → s.phase = .operation → s.op = some (.read r) →
    s.cfg.addrBits ≤ r.acc.count →
    exec .ce s = .next
      { s with
        op := none, ir := 0x00#8, irCount := 0, phase := .deselected, ce := .high
        log := s.log ++ [.enableToggle], returned := [.ok] }

/-- 45_write_enable.md, wren_end: the latch is set, or ProtocolViolation if it is set already; the
chip deselects and the toggle is logged in both cases (the failing one: decision D10). -/
def Obligations.EndOfWriteEnableSetsLatch : Prop :=
  ∀ s : State, s.cfg.Legal → s.phase = .operation → s.op = some .writeEnable →
    exec .ce s = .next
      { s with
        wel := true
        op := none, ir := 0x00#8, irCount := 0, phase := .deselected, ce := .high
        log := s.log ++ [.enableToggle]
        returned := [if s.wel then .err .protocolViolation else .ok] }

/-- 46_chip_erase.md R231: every byte of the store becomes 0xFF, the latch is cleared. -/
def Obligations.EndOfChipEraseSetsEveryByte : Prop :=
  ∀ s : State, s.cfg.Legal → s.phase = .operation → s.op = some .chipErase →
    ∃ t, exec .ce s = .next t ∧
      t = { s with
        store := t.store, wel := false
        op := none, ir := 0x00#8, irCount := 0, phase := .deselected, ce := .high
        log := s.log ++ [.enableToggle], returned := [.ok] } ∧
      ∀ i, i < s.cfg.capacity → t.store.read i = 0xFF#8

/-- 44_write.md, write_end (decisions D6, D7, D9): each complete buffered byte goes to its
destination, unless the Write was aborted; every other byte of the store and everything else but the
latch and the deselection stays. In every state that satisfies the invariant of 10_state.md R27. -/
def Obligations.EndOfWriteCommitsCompleteBytes : Prop :=
  ∀ (s : State) (w : WriteOp), s.Inv → s.phase = .operation → s.op = some (.write w) →
    s.cfg.addrBits ≤ w.acc.count →
    ∃ t, exec .ce s = .next t ∧
      t = { s with
        store := t.store, wel := false
        op := none, ir := 0x00#8, irCount := 0, phase := .deselected, ce := .high
        log := s.log ++ [.enableToggle], returned := [.ok] } ∧
      (w.aborted = true → t.store = s.store) ∧
      (w.aborted = false →
        (∀ k, k < w.nin / 8 →
          ∃ i, dest s.cfg w.acc.value k = .ok i ∧ w.buf[k]? = some (t.store.read i)) ∧
        (∀ i, (∀ k, k < w.nin / 8 → dest s.cfg w.acc.value k ≠ .ok i) →
          t.store.read i = s.store.read i))

/-! ## Whole commands (30_encoding.md R80; a command row as one instruction is log 6) -/

/-- 45_write_enable.md, WRITE ENABLE from Deselected: the latch is set; if it was set already, the
closing chip-enable returns ProtocolViolation and the latch stays set. `si` ends at the level of the
opcode's last bit. -/
def Obligations.WrenCommandSetsLatch : Prop :=
  ∀ s : State, s.cfg.Legal → s.phase = .deselected →
    exec .wren s = .next
      { s with
        wel := true, si := .low
        op := none, ir := 0x00#8, irCount := 0, ce := .high
        log := s.log ++ eventsOf (frameActions s.si (byteBits 0x06#8))
        returned :=
          List.replicate ((frameActions s.si (byteBits 0x06#8)).length - 1) .ok ++
            [if s.wel then .err .protocolViolation else .ok] }

/-- 46_chip_erase.md, CHIP ERASE from Deselected with the latch set: every byte 0xFF, the latch
cleared, everything else but the pins' final levels and the log as before. -/
def Obligations.ChipEraseCommandErasesTheStore : Prop :=
  ∀ s : State, s.cfg.Legal → s.phase = .deselected → s.wel = true →
    ∃ t, exec .chipErase s = .next t ∧
      t = { s with
        store := t.store, wel := false, si := .low
        op := none, ir := 0x00#8, irCount := 0, ce := .high
        log := s.log ++ eventsOf (frameActions s.si (byteBits 0x60#8))
        returned := List.replicate (frameActions s.si (byteBits 0x60#8)).length .ok } ∧
      ∀ i, i < s.cfg.capacity → t.store.read i = 0xFF#8

/-- 44_write.md, page program from Deselected with the latch set, over erased destinations and
within the buffer (decisions D3 to D7; a Write past the buffer's end, or past the store's end under
Fail, is left to WriteClockBuffersOrFails and EndOfWriteCommitsCompleteBytes): every data byte stands
at its destination, every other byte is
as before, a trailing partial byte is discarded, the latch is cleared. -/
def Obligations.WriteCommandProgramsTheBytes : Prop :=
  ∀ (s : State) (addr : Nat) (data : List Byte) (tail : List Bool),
    s.cfg.Legal → s.store.wf = true → s.phase = .deselected → s.wel = true →
    (Instr.write addr data tail).wellFormed s.cfg = true →
    (∀ k, 8 * k < 8 * data.length + tail.length →
      ∃ i, dest s.cfg addr k = .ok i ∧ s.store.read i = 0xFF#8) →
    ∃ t, exec (.write addr data tail) s = .next t ∧
      t = { s with
        store := t.store, wel := false
        si := levelAfter s.si (frameBits s.cfg (.write addr data tail))
        op := none, ir := 0x00#8, irCount := 0, ce := .high
        log := s.log ++
          eventsOf (frameActions s.si (frameBits s.cfg (.write addr data tail)))
        returned :=
          List.replicate
            (frameActions s.si (frameBits s.cfg (.write addr data tail))).length .ok } ∧
      (∀ k, k < data.length →
        ∃ i, dest s.cfg addr k = .ok i ∧ data[k]? = some (t.store.read i)) ∧
      (∀ i, (∀ k, k < data.length → dest s.cfg addr k ≠ .ok i) →
        t.store.read i = s.store.read i)

/-- 44_write.md, NonErasedWrite (decisions D9, D15): a Write that meets a destination that is not
erased programs nothing, reports the index, and still consumes the latch. -/
def Obligations.WriteCommandOverProgrammedByteCommitsNothing : Prop :=
  ∀ (s : State) (addr : Nat) (data : List Byte) (tail : List Bool) (k i : Nat),
    s.cfg.Legal → s.phase = .deselected → s.wel = true →
    (Instr.write addr data tail).wellFormed s.cfg = true → k < data.length →
    (∀ l, l < k → ∃ j, dest s.cfg addr l = .ok j ∧ s.store.read j = 0xFF#8) →
    dest s.cfg addr k = .ok i → s.store.read i ≠ 0xFF#8 →
    ∃ t, exec (.write addr data tail) s = .next t ∧
      t = { s with
        wel := false, si := levelAfter s.si (frameBits s.cfg (.write addr data tail))
        op := none, ir := 0x00#8, irCount := 0, ce := .high
        log := s.log ++
          eventsOf (frameActions s.si (frameBits s.cfg (.write addr data tail)))
        returned := t.returned } ∧
      .err (.nonErasedWrite i) ∈ t.returned

/-- 43_read.md, read from Deselected (decision D4): the data clocks drive the bits of the store from
the address on, most significant first; the store, the latch and everything else but the pins' final
levels and the log stay. Under Fail the stream stays inside the store; a data clock past its end is left
to ReadClockDrivesSerialOutput. -/
def Obligations.ReadCommandStreamsTheBytes : Prop :=
  ∀ (s : State) (addr clocks : Nat),
    s.cfg.Legal → s.phase = .deselected →
    (Instr.read addr clocks).wellFormed s.cfg = true →
    (s.cfg.endPolicy = .fail → ∀ k, 8 * k < clocks → addr + k < s.cfg.capacity) →
    exec (.read addr clocks) s = .next
      { s with
        si := levelAfter s.si (byteBits 0x03#8 ++ natBits s.cfg.addrBits addr)
        so := if clocks = 0 then s.so else streamLevel s addr (clocks - 1)
        op := none, ir := 0x00#8, irCount := 0, ce := .high
        log := s.log ++ eventsOf (readActions s.cfg s.si addr clocks)
        returned :=
          List.replicate
              (1 + (send s.si (byteBits 0x03#8 ++ natBits s.cfg.addrBits addr)).length) .ok ++
            (streamResults s addr 0 clocks ++ [.ok]) }

/-- 41_command_decode.md and 30_encoding.md, an opcode outside the table clocked in from
Deselected: the eighth clock returns UnknownOpcode and changes nothing, so the chip stays in
CommandPhase with one opcode bit to come. That the command's instruction goes on to its closing
chip-enable toggle, which fails in CommandPhase and adds the ProtocolViolation, is the model's choice
(log 7). -/
def Obligations.UnknownOpcodeCommandStaysInCommandPhase : Prop :=
  ∀ (s : State) (op : Byte), s.cfg.Legal → s.phase = .deselected →
    (Instr.unknownOpcode op).wellFormed s.cfg = true →
    ∃ t, exec (.unknownOpcode op) s = .next t ∧
      t = { s with
        ce := .low, phase := .command, ir := setBit op 0 false, irCount := 1
        si := pinOf (op.getLsbD 0)
        log := s.log ++ .enableToggle :: (eventsOf (send s.si (byteBits op))).dropLast
        returned :=
          List.replicate (send s.si (byteBits op)).length .ok ++
            [.err (.unknownOpcode op), .err .protocolViolation] }

/-- 41_command_decode.md, the write-enable guard, over whole commands: a Write or a ChipErase
without the latch reports NotWriteEnabled and leaves the store and the latch as they are, whatever the
bits after the opcode. That the command's instruction goes on clocking those bits after the error, and
then toggles chip-enable, is the model's choice (log 7). -/
def Obligations.DestructiveCommandNeedsLatch : Prop :=
  ∀ (s : State) (i : Instr), s.cfg.Legal → s.phase = .deselected → s.wel = false →
    ((∃ addr data tail, i = .write addr data tail) ∨ i = .chipErase) →
    ∃ t, exec i s = .next t ∧ .err .notWriteEnabled ∈ t.returned ∧
      t.store = s.store ∧ t.wel = false

/-- 30_encoding.md R80 with 20_memory.md's atomic actions: host actions conducted as one step reach
the state that the same actions reach as one request each (logs 3 and 6). -/
def Obligations.CommandIsItsHostActions : Prop :=
  ∀ (as : List HostAction) (s t : State) (rest : List Request), s.cfg.Legal →
    conduct as s = .next t →
    ∃ rs, Sys2Proof.core.run as.length
        { s with
          input := as.map hostRequest ++ rest } =
      .next { t with input := rest, returned := rs } ∧
      (as ≠ [] → rs = t.returned.drop (as.length - 1))

/-! ## Invariants -/

/-- 10_state.md, the invariants of every reachable state: they hold right after construction of every
legal configuration, State.reset among them. -/
def Obligations.ConstructionSatisfiesTheInvariant : Prop :=
  (∀ c s, construct c = some s → s.Inv ∧ s.PinsFollowLog) ∧ State.reset.Inv ∧
    State.reset.PinsFollowLog

/-- 10_state.md, the invariants of every reachable state: every step keeps them, from every state
that satisfies them. -/
def Obligations.StepKeepsTheInvariant : Prop :=
  ∀ s t : State, s.Inv → step s = .next t → t.Inv

/-- 60_exceptions.md: after an error the instance can still be used, and no action has any other way
to end: in every state that satisfies the invariant, every instruction and every step answer a next
state. -/
def Obligations.InvariantStatesNeverStop : Prop :=
  ∀ s : State, s.Inv →
    (∃ t, step s = .next t) ∧ ∀ i : Instr, ∃ t, exec i s = .next t

/-- 10_state.md, the pins: chip-enable and serial-input are at their levels after construction
flipped once per logged toggle; every step keeps it. -/
def Obligations.StepKeepsPinsFollowingTheLog : Prop :=
  ∀ s t : State, s.Inv → s.PinsFollowLog → step s = .next t → t.PinsFollowLog

/-- 00_scope.md section 4, with the model's own fields (logs 1 and 3): a step changes no parameter
and takes exactly the host's next request. -/
def Obligations.StepKeepsConfigurationAndTakesOneRequest : Prop :=
  ∀ s t : State, step s = .next t → t.cfg = s.cfg ∧ t.input = s.input.tail

/-! ## Who may change what -/

/-- 20_memory.md and 10_state.md, the data store: only the chip-enable toggle that ends a Write or a
ChipErase changes it, and only while the latch is set. -/
def Obligations.OnlyACommandEndWritesTheStore : Prop :=
  ∀ (s t : State) (a : HostAction) (r : Result), s.Inv → act a s = .done r t →
    t.store ≠ s.store →
    a = .event .enableToggle ∧ s.phase = .operation ∧ s.wel = true ∧ r = .ok ∧
      ((∃ w, s.op = some (.write w)) ∨ s.op = some .chipErase)

/-- 10_state.md, the write-enable latch: its only writers are the ends of a WriteEnable, which sets
it, and of a Write or a ChipErase, which clear it. -/
def Obligations.OnlyACommandEndWritesTheLatch : Prop :=
  ∀ (s t : State) (a : HostAction) (r : Result), act a s = .done r t → t.wel ≠ s.wel →
    a = .event .enableToggle ∧ s.phase = .operation ∧ r = .ok ∧
      ((t.wel = true ∧ s.op = some .writeEnable) ∨
        (t.wel = false ∧ ((∃ w, s.op = some (.write w)) ∨ s.op = some .chipErase)))

/-- 10_state.md, serial-output (decision D11): only a data clock of a Read changes it. -/
def Obligations.OnlyAReadClockDrivesSerialOutput : Prop :=
  ∀ (s t : State) (a : HostAction) (r : Result), act a s = .done r t → t.so ≠ s.so →
    a = .event .clockPulse ∧ s.phase = .operation ∧ r = .ok ∧
      ∃ rd, s.op = some (.read rd) ∧ s.cfg.addrBits ≤ rd.acc.count

/-- 40_pin_interface.md R112: whatever the handler returns, a clock in OperationPhase stays in
OperationPhase. -/
def Obligations.OperationClockStaysInOperationPhase : Prop :=
  ∀ s : State, s.phase = .operation →
    act (.event .clockPulse) s = logged .clockPulse (opOnClock s) ∧
      ∀ r t, opOnClock s = .done r t ∨ act (.event .clockPulse) s = .done r t →
        t.phase = .operation

/-- 60_exceptions.md, rollback (decisions D10, D15): a failing action leaves the state exactly as it
was, but for a failing command end, which deselects, and a NonErasedWrite, which aborts the Write and
is logged. -/
def Obligations.FailedActionRollsBack : Prop :=
  ∀ (s t : State) (a : HostAction) (e : Error), act a s = .done (.err e) t →
    t = s ∨
      (a = .event .enableToggle ∧ s.phase = .operation ∧ e = .protocolViolation ∧
        t = { s with
          op := none, ir := 0x00#8, irCount := 0, phase := .deselected, ce := .high
          log := s.log ++ [.enableToggle] }) ∨
      (a = .event .clockPulse ∧ s.phase = .operation ∧
        ∃ w i, s.op = some (.write w) ∧ e = .nonErasedWrite i ∧
          t = { s with
            op := some (.write { w with aborted := true })
            log := s.log ++ [.clockPulse] })

/-- 40_pin_interface.md, logging (decisions D10, D15, D21), and 47_event_log.md: a successful event
appends itself, a getter nothing, and no action does anything else to the log. -/
def Obligations.LogGrowsByTheActionPerformed : Prop :=
  ∀ (s t : State) (a : HostAction) (r : Result), act a s = .done r t →
    (t.log = s.log ∨ ∃ e, a = .event e ∧ t.log = s.log ++ [e]) ∧
      (r = .ok → ∃ e, a = .event e ∧ t.log = s.log ++ [e]) ∧
      (∀ p, a = .getter p → t = s)

/-- 20_memory.md, the NOR programming law: ending a Write clears bits of the store and sets none. -/
def Obligations.ProgrammingOnlyClearsBits : Prop :=
  ∀ (s t : State) (w : WriteOp), s.Inv → s.phase = .operation → s.op = some (.write w) →
    exec .ce s = .next t → ∀ i, t.store.read i &&& s.store.read i = t.store.read i

/-- 46_chip_erase.md, erase_end's loop: the erased store of the model (log 9) is the store with 0xFF
written at every index, from any store in canonical form. -/
def Obligations.ErasingIsWritingEveryByte : Prop :=
  ∀ (m : Memory) (n : Nat), 0 < n → m.wf = true → m.within n = true →
    (List.range n).foldl (fun m i => m.write i 0xFF#8) m = Memory.erased n

/-! ## Runs -/

/-- 47_event_log.md, replay: the log of a run is the events the run kept, every other action of it
failed, and performing the log on a fresh instance of the same configuration reproduces the state,
each event returning what it returned in the run. -/
def Obligations.ReplayReproducesTheState : Prop :=
  ∀ (c : Config) (es : List Event) (rs : List Result) (s : State), runsTo c es rs s →
    ∃ kept : List Bool, kept.length = es.length ∧ s.log = picked kept es ∧
      (∀ r ∈ picked (kept.map Bool.not) rs, reportsError r = true) ∧
      replay s.log (freshState c) = .ok (picked kept rs, s)

/-- 70_reset_and_hazards.md, the stuck instance: once both values of bit 0 fail, every clock and
every chip-enable toggle returns an error, and the instance stays stuck whatever the host does. -/
def Obligations.StuckInstanceStaysStuck : Prop :=
  ∀ (s : State) (a : HostAction), s.StuckInstance →
    ∃ r t, act a s = .done r t ∧ t.StuckInstance ∧ t.store = s.store ∧ t.wel = s.wel ∧
      (a = .event .clockPulse ∨ a = .event .enableToggle → reportsError r = true ∧ t = s)

/-- 47_event_log.md, round trip: serialize, then deserialize, reproduces the events; deserialize,
then serialize, reproduces the string; two logs with one string are one log. -/
def Obligations.SerializationRoundTrips : Prop :=
  (∀ es : List Event, deserialize (serialize es) = .ok es) ∧
    (∀ (text : List Char) (es : List Event), deserialize text = .ok es → serialize es = text) ∧
    (∀ es es' : List Event, serialize es = serialize es' → es = es')

/-- 47_event_log.md, deserialize: InvalidSerialization at the first character outside the alphabet,
and then no list. -/
def Obligations.DeserializeFailsAtTheFirstForeignCharacter : Prop :=
  ∀ (es : List Event) (ch : Char) (rest : List Char), eventOfChar ch = none →
    deserialize (serialize es ++ ch :: rest) = .error (.invalidSerialization ch)

/-- 70_reset_and_hazards.md, the boot sequence, and 43_read.md, 44_write.md (decisions D3 to D7):
WriteEnable, ChipErase, WriteEnable, Write, Read from any Deselected state with the latch clear. What
was programmed is what the data clocks of the Read return, bit by bit. A trailing partial byte of the
Write is left to WriteCommandProgramsTheBytes. -/
def Obligations.ProgrammedBytesAreReadBack : Prop :=
  ∀ (s : State) (addr : Nat) (data : List Byte), s.cfg.Legal → s.phase = .deselected →
    s.wel = false → addr < 2 ^ s.cfg.addrBits → data.length ≤ s.cfg.wbufCap →
    (s.cfg.endPolicy = .fail → ∀ k, k < data.length → addr + k < s.cfg.capacity) →
    ∃ s1 s2 s3 s4 s5,
      exec .wren s = .next s1 ∧ exec .chipErase s1 = .next s2 ∧ exec .wren s2 = .next s3 ∧
      exec (.write addr data []) s3 = .next s4 ∧
      exec (.read addr (8 * data.length)) s4 = .next s5 ∧
      s5.phase = .deselected ∧ s5.wel = false ∧
      s5.returned.filterMap pinBit = bytesBits data

/-- 44_write.md, a freshly constructed instance (its store is 0x00): a Write with data programs
nothing and returns NonErasedWrite, although the latch is set, and consumes the latch. -/
def Obligations.FreshInstanceCannotBeProgrammed : Prop :=
  ∀ (c : Config) (s : State) (addr : Nat) (data : List Byte) (tail : List Bool),
    construct c = some s → data ≠ [] → (Instr.write addr data tail).wellFormed c = true →
    (c.endPolicy = .fail → addr < c.capacity) →
    ∃ s1 t, exec .wren s = .next s1 ∧ exec (.write addr data tail) s1 = .next t ∧
      s1.wel = true ∧ t.wel = false ∧ t.phase = .deselected ∧
      (∀ i, i < c.capacity → t.store.read i = 0x00#8) ∧
      ∃ i, .err (.nonErasedWrite i) ∈ t.returned

/-- 47_event_log.md and 60_exceptions.md, error causes: InvalidSerialization comes from deserialize and
from nothing else, no host action, no instruction and no step of the model; a string that raises it
leaves the instance and the host's queue as they were. Loading a string into the queue is the model's
(logs 3 and 17). -/
def Obligations.OnlyDeserializeRaisesInvalidSerialization : Prop :=
  (∀ (a : HostAction) (s t : State) (ch : Char),
    act a s ≠ .done (.err (.invalidSerialization ch)) t) ∧
  (∀ (i : Instr) (s t : State) (ch : Char), exec i s = .next t →
    .err (.invalidSerialization ch) ∉ t.returned) ∧
  (∀ (s t : State) (ch : Char), step s = .next t →
    .err (.invalidSerialization ch) ∉ t.returned) ∧
  (∀ (text : List Char) (s t : State) (r : Result), loadProgram text s = .done r t →
    (∃ es, deserialize text = .ok es ∧ r = .ok ∧
      t = { s with input := s.input ++ es.map Request.event }) ∨
    (∃ ch, deserialize text = .error (.invalidSerialization ch) ∧
      r = .err (.invalidSerialization ch) ∧ t = s))
end

