-- ==== Sys2Proof/Laws/Bits.lean ====
section
/-! SUPPORT. The laws of bits on the wire: a number, a byte, a sequence of bytes and their bits, most
significant first, give each other back; setting a bit; the dispatch table. -/

namespace Sys2Proof

@[simp] theorem natBits_length (n v : Nat) : (natBits n v).length = n := by
  induction n with
  | zero => rfl
  | succ n ih => simp [natBits, ih]

@[simp] theorem byteBits_length (b : Byte) : (byteBits b).length = 8 := natBits_length 8 _

@[simp] theorem bytesBits_length (bs : List Byte) : (bytesBits bs).length = 8 * bs.length := by
  induction bs with
  | nil => rfl
  | cons b bs ih => simp [bytesBits, ih]; omega

theorem foldl_bits (bits : List Bool) :
    ∀ v : Nat, bits.foldl (fun v b => 2 * v + b.toNat) v = v * 2 ^ bits.length + bitsNat bits := by
  induction bits with
  | nil => intro v; simp [bitsNat]
  | cons b bs ih =>
    intro v
    have h0 := ih b.toNat
    simp only [bitsNat, List.foldl_cons, List.length_cons, Nat.mul_zero, Nat.zero_add] at h0 ⊢
    rw [ih, h0, pow_succ]
    simp only [bitsNat]
    ring

theorem bitsNat_cons (b : Bool) (bs : List Bool) :
    bitsNat (b :: bs) = b.toNat * 2 ^ bs.length + bitsNat bs := by
  simp only [bitsNat, List.foldl_cons, Nat.mul_zero, Nat.zero_add]
  exact foldl_bits bs b.toNat

@[simp] theorem bitsNat_nil : bitsNat [] = 0 := rfl

theorem bitsNat_append_singleton (bs : List Bool) (b : Bool) :
    bitsNat (bs ++ [b]) = 2 * bitsNat bs + b.toNat := by
  simp [bitsNat, List.foldl_append]

theorem bitsNat_lt (bits : List Bool) : bitsNat bits < 2 ^ bits.length := by
  induction bits with
  | nil => simp
  | cons b bs ih =>
    rw [bitsNat_cons, List.length_cons, pow_succ]
    cases b <;> simp <;> omega

/-- The bits of a number, read back, are its low bits. -/
theorem bitsNat_natBits (n v : Nat) : bitsNat (natBits n v) = v % 2 ^ n := by
  induction n with
  | zero => simp [natBits, Nat.mod_one]
  | succ n ih =>
    have hb : (v.testBit n).toNat = v / 2 ^ n % 2 := by
      rw [Nat.testBit_eq_decide_div_mod_eq]
      rcases Nat.mod_two_eq_zero_or_one (v / 2 ^ n) with h | h <;> simp [h]
    rw [natBits, bitsNat_cons, natBits_length, ih, hb, Nat.mod_pow_succ]
    ring

/-- Bits are the bits of the number they spell. -/
theorem natBits_bitsNat (bits : List Bool) : natBits bits.length (bitsNat bits) = bits := by
  have key : ∀ (n u v : Nat), u % 2 ^ n = v % 2 ^ n → natBits n u = natBits n v := by
    intro n
    induction n with
    | zero => intros; rfl
    | succ n ih =>
      intro u v h
      have h1 : u % 2 ^ n = v % 2 ^ n := by
        have := congrArg (· % 2 ^ n) h
        simpa [Nat.mod_mod_of_dvd _ (pow_dvd_pow 2 (Nat.le_succ n))] using this
      have h2 : u.testBit n = v.testBit n := by
        have hu := Nat.testBit_mod_two_pow u (n + 1) n
        have hv := Nat.testBit_mod_two_pow v (n + 1) n
        simp only [Nat.lt_succ_self, decide_true, Bool.true_and] at hu hv
        rw [← hu, ← hv, h]
      rw [natBits, natBits, h2, ih u v h1]
  induction bits with
  | nil => rfl
  | cons b bs ih =>
    have hlt := bitsNat_lt bs
    rw [List.length_cons, natBits]
    have hb : (bitsNat (b :: bs)).testBit bs.length = b := by
      rw [bitsNat_cons, Nat.testBit_eq_decide_div_mod_eq, Nat.mul_comm,
        Nat.mul_add_div (Nat.two_pow_pos _), Nat.div_eq_of_lt hlt]
      cases b <;> rfl
    have hm : natBits bs.length (bitsNat (b :: bs)) = natBits bs.length (bitsNat bs) :=
      key _ _ _ (by rw [bitsNat_cons, Nat.mul_comm, Nat.mul_add_mod])
    rw [hb, hm, ih]

/-- A byte is the byte of its bits. -/
@[simp] theorem bitsByte_byteBits (b : Byte) : bitsByte (byteBits b) = b := by
  rw [bitsByte, byteBits, bitsNat_natBits, Nat.mod_eq_of_lt b.isLt, BitVec.ofNat_toNat,
    BitVec.setWidth_eq]

/-- Eight bits are the bits of their byte. -/
theorem byteBits_bitsByte {bits : List Bool} (h : bits.length = 8) :
    byteBits (bitsByte bits) = bits := by
  have hlt := bitsNat_lt bits
  rw [h] at hlt
  rw [byteBits, bitsByte, BitVec.toNat_ofNat, Nat.mod_eq_of_lt hlt]
  have := natBits_bitsNat bits
  rwa [h] at this

/-- Splitting the bits of complete bytes and a partial one gives them back. -/
theorem splitBytes_bytesBits (bs : List Byte) (tail : List Bool) (h : tail.length < 8) :
    splitBytes (bytesBits bs ++ tail) = (bs, tail) := by
  induction bs with
  | nil =>
    match tail, h with
    | [], _ => rfl
    | [_], _ => rfl
    | [_, _], _ => rfl
    | [_, _, _], _ => rfl
    | [_, _, _, _], _ => rfl
    | [_, _, _, _, _], _ => rfl
    | [_, _, _, _, _, _], _ => rfl
    | [_, _, _, _, _, _, _], _ => rfl
    | _ :: _ :: _ :: _ :: _ :: _ :: _ :: _ :: _, h => simp at h; omega
  | cons b bs ih =>
    have hb := bitsByte_byteBits b
    simp only [byteBits, natBits] at hb
    rw [bytesBits, List.append_assoc, byteBits, natBits, natBits, natBits, natBits, natBits, natBits,
      natBits, natBits, natBits]
    simp only [List.cons_append, List.nil_append, splitBytes, ih, hb]

/-- Splitting loses no bit, and the partial byte is shorter than a byte. -/
theorem bytesBits_splitBytes (bits : List Bool) :
    bytesBits (splitBytes bits).1 ++ (splitBytes bits).2 = bits ∧ (splitBytes bits).2.length < 8 := by
  fun_induction splitBytes bits with
  | case1 b7 b6 b5 b4 b3 b2 b1 b0 rest r ih =>
    refine ⟨?_, ih.2⟩
    simp only [bytesBits, List.append_assoc]
    rw [byteBits_bitsByte rfl, ih.1]
    rfl
  | case2 short h =>
    refine ⟨rfl, ?_⟩
    match short, h with
    | [], _ => decide
    | [_], _ => simp
    | [_, _], _ => simp
    | [_, _, _], _ => simp
    | [_, _, _, _], _ => simp
    | [_, _, _, _, _], _ => simp
    | [_, _, _, _, _, _], _ => simp
    | [_, _, _, _, _, _, _], _ => simp
    | b7 :: b6 :: b5 :: b4 :: b3 :: b2 :: b1 :: b0 :: rest, h =>
      exact (h b7 b6 b5 b4 b3 b2 b1 b0 rest rfl).elim

/-! ## The dispatch table -/

@[simp] theorem lookupOpcode_opcode (c : Command) : lookupOpcode c.opcode = some c := by
  cases c <;> rfl

theorem opcode_of_lookup {b : Byte} {c : Command} (h : lookupOpcode b = some c) : b = c.opcode := by
  unfold lookupOpcode at h
  repeat' split at h
  all_goals first | (cases h; assumption) | cases h

theorem lookupOpcode_eq_none {b : Byte} : lookupOpcode b = none ↔ ∀ c : Command, b ≠ c.opcode := by
  constructor
  · intro h c hb
    rw [hb, lookupOpcode_opcode] at h
    cases h
  · intro h
    cases hl : lookupOpcode b with
    | none => rfl
    | some c => exact absurd (opcode_of_lookup hl) (h c)

/-! ## The event alphabet -/

@[simp] theorem eventOfChar_char (e : Event) : eventOfChar e.char = some e := by
  cases e <;> decide

theorem char_of_eventOfChar {ch : Char} {e : Event} (h : eventOfChar ch = some e) : ch = e.char := by
  unfold eventOfChar at h
  repeat' split at h
  all_goals first | (cases h; assumption) | cases h

namespace Machine

/-! ## Pins and bits -/

@[simp] theorem bitOf_pinOf (b : Bool) : bitOf (pinOf b) = b := by cases b <;> rfl

@[simp] theorem pinOf_bitOf (p : Pin) : pinOf (bitOf p) = p := by cases p <;> rfl

@[simp] theorem toggled_toggled (p : Pin) : toggled (toggled p) = p := by cases p <;> rfl

theorem toggled_eq_pinOf {p : Pin} {b : Bool} (h : ¬bitOf p = b) : toggled p = pinOf b := by
  cases p <;> cases b <;> simp_all [bitOf, toggled, pinOf]

theorem eq_pinOf {p : Pin} {b : Bool} (h : bitOf p = b) : p = pinOf b := by
  rw [← h, pinOf_bitOf]

/-- Setting a bit sets that bit and no other. -/
theorem setBit_getLsbD (v : Byte) {pos : Nat} (hp : pos < 8) (b : Bool) (j : Nat) :
    (setBit v pos b).getLsbD j = if j = pos then b else v.getLsbD j := by
  by_cases hj : j < 8
  · have : ∀ p : Fin 8, ∀ q : Fin 8, ∀ x : Bool, (setBit v p x).getLsbD q =
        if (q : Nat) = p then x else v.getLsbD q := by
      intro p q x
      fin_cases p <;> fin_cases q <;> cases x <;> simp [setBit]
    exact this ⟨pos, hp⟩ ⟨j, hj⟩ b
  · rw [BitVec.getLsbD_of_ge _ _ (by omega), if_neg (by omega), BitVec.getLsbD_of_ge _ _ (by omega)]

/-- A byte is determined by its eight bits. -/
theorem byte_ext {u v : Byte} (h : ∀ j < 8, u.getLsbD j = v.getLsbD j) : u = v :=
  BitVec.eq_of_getLsbD_eq fun j hj => h j hj

/-- The bit of a byte that is sent `t`-th. -/
theorem bitsByte_getLsbD (b : Byte) (t : Nat) (h : t < 8) :
    (byteBits b)[t]'(by simpa using h) = b.getLsbD (7 - t) := by
  have : t = 0 ∨ t = 1 ∨ t = 2 ∨ t = 3 ∨ t = 4 ∨ t = 5 ∨ t = 6 ∨ t = 7 := by omega
  rcases this with rfl | rfl | rfl | rfl | rfl | rfl | rfl | rfl <;> rfl

/-! ## Destinations -/

/-- A destination lies in the store (20_memory.md R64). -/
theorem dest_lt {c : Config} (hc : c.Legal) {addr k i : Nat} (h : dest c addr k = .ok i) :
    i < c.capacity := by
  unfold dest at h
  split at h
  · cases h
    exact Nat.mod_lt _ hc.2.1
  · split at h
    · cases h
      assumption
    · cases h

/-- The only error of a destination is ProtocolViolation (20_memory.md R64). -/
theorem dest_error {c : Config} {addr k : Nat} {e : Error} (h : dest c addr k = .error e) :
    e = .protocolViolation := by
  unfold dest at h
  split at h
  · cases h
  · split at h
    · cases h
    · cases h
      rfl

/-- The destinations of the bytes one Write can buffer are distinct (20_memory.md R70). -/
theorem dest_injective {c : Config} {addr k l i : Nat} (hk : k < c.capacity) (hl : l < c.capacity)
    (h : dest c addr k = .ok i) (h' : dest c addr l = .ok i) : k = l := by
  unfold dest at h h'
  cases hp : c.endPolicy with
  | wrap =>
    rw [hp] at h h'
    simp only [Except.ok.injEq] at h h'
    have hm := Nat.ModEq.add_left_cancel' addr (show addr + k ≡ addr + l [MOD c.capacity] by
      rw [Nat.ModEq, h, h'])
    rwa [Nat.ModEq, Nat.mod_eq_of_lt hk, Nat.mod_eq_of_lt hl] at hm
  | fail =>
    rw [hp] at h h'
    simp only at h h'
    split at h
    · split at h'
      · simp only [Except.ok.injEq] at h h'
        omega
      · cases h'
    · cases h

end Machine

end Sys2Proof
end

