-- ==== Sys2Proof/Laws/Memory.lean ====
section
/-! SUPPORT. The laws of the data store: a write is read back and leaves every other address alone,
every operation keeps the canonical form, and two stores in canonical form that read the same are the
same list. -/

namespace Sys2Proof.Machine.Memory

@[simp] theorem readFrom_nil (d : Byte) (i : Nat) : readFrom d [] i = d := rfl

theorem readFrom_cons (d v : Byte) (a i : Nat) (rest : Memory) :
    readFrom d ((a, v) :: rest) i = if i < a then d else readFrom v rest i := rfl

/-- Below the first listed address a store in canonical form reads as unlisted. -/
theorem readFrom_of_lt {lo : Nat} {d : Byte} {m : Memory} (h : wfFrom lo d m = true) {i : Nat}
    (hi : i < lo) : readFrom d m i = d := by
  cases m with
  | nil => rfl
  | cons cell rest =>
    obtain ⟨a, v⟩ := cell
    simp only [wfFrom, Bool.and_eq_true, decide_eq_true_eq] at h
    rw [readFrom_cons, if_pos (by omega)]

theorem wfFrom_mono {lo lo' : Nat} {d : Byte} {m : Memory} (h : wfFrom lo d m = true)
    (hl : lo' ≤ lo) : wfFrom lo' d m = true := by
  cases m with
  | nil => rfl
  | cons cell rest =>
    obtain ⟨a, v⟩ := cell
    simp only [wfFrom, Bool.and_eq_true, decide_eq_true_eq] at h ⊢
    exact ⟨⟨by omega, h.1.2⟩, h.2⟩

/-- An entry reads as its byte from its address on, and as before below it. -/
theorem readFrom_entry (d v : Byte) (a i : Nat) (rest : Memory)
    (h : wfFrom (a + 1) v rest = true) :
    readFrom d (entry d a v rest) i = if i < a then d else readFrom v rest i := by
  unfold entry
  split
  · next hv =>
    subst hv
    split
    · exact readFrom_of_lt h (by omega)
    · rfl
  · rfl

theorem wfFrom_entry {lo : Nat} (d v : Byte) (a : Nat) {rest : Memory} (hl : lo ≤ a)
    (h : wfFrom (a + 1) v rest = true) : wfFrom lo d (entry d a v rest) = true := by
  unfold entry
  split
  · next hv => subst hv; exact wfFrom_mono h (by omega)
  · next hv => simp [wfFrom, hl, hv, h]

/-- From `a` on the store reads as `v` and the entries after it say. -/
theorem readFrom_resume (b v : Byte) (a i : Nat) (rest : Memory) (h : wfFrom a v rest = true) :
    readFrom b (resume b a v rest) i = if i < a then b else readFrom v rest i := by
  cases rest with
  | nil => rw [resume, readFrom_entry _ _ _ _ _ rfl]
  | cons cell rest =>
    obtain ⟨a', v'⟩ := cell
    have h' := h
    simp only [wfFrom, Bool.and_eq_true, decide_eq_true_eq] at h
    rw [resume]
    split
    · next ha =>
      subst ha
      rw [readFrom_entry _ _ _ _ _ h.2, readFrom_cons]
      split <;> rfl
    · next ha =>
      rw [readFrom_entry]
      simp only [wfFrom, Bool.and_eq_true, decide_eq_true_eq]
      exact ⟨⟨by omega, h.1.2⟩, h.2⟩

theorem wfFrom_resume {lo : Nat} (b v : Byte) (a : Nat) {rest : Memory} (hl : lo ≤ a)
    (h : wfFrom a v rest = true) : wfFrom lo b (resume b a v rest) = true := by
  cases rest with
  | nil => exact wfFrom_entry _ _ _ hl rfl
  | cons cell rest =>
    obtain ⟨a', v'⟩ := cell
    simp only [wfFrom, Bool.and_eq_true, decide_eq_true_eq] at h
    rw [resume]
    split
    · next ha => subst ha; exact wfFrom_entry _ _ _ hl h.2
    · next ha =>
      refine wfFrom_entry _ _ _ hl ?_
      simp only [wfFrom, Bool.and_eq_true, decide_eq_true_eq]
      exact ⟨⟨by omega, h.1.2⟩, h.2⟩

theorem readFrom_writeFrom (i : Nat) (b : Byte) (j : Nat) :
    ∀ (m : Memory) (lo : Nat) (d : Byte), wfFrom lo d m = true → lo ≤ i →
      readFrom d (writeFrom i b d m) j = if j = i then b else readFrom d m j := by
  intro m
  induction m with
  | nil =>
    intro lo d _ _
    rw [writeFrom, readFrom_entry _ _ _ _ _ (wfFrom_resume _ _ _ (Nat.le_refl _) rfl),
      readFrom_resume _ _ _ _ _ rfl]
    simp only [readFrom_nil]
    repeat' split
    all_goals first | rfl | omega
  | cons cell rest ih =>
    obtain ⟨a, v⟩ := cell
    intro lo d h hlo
    simp only [wfFrom, Bool.and_eq_true, decide_eq_true_eq] at h
    obtain ⟨⟨hla, hv⟩, hr⟩ := h
    rw [writeFrom]
    split
    · next hia =>
      have hw : wfFrom (i + 1) d ((a, v) :: rest) = true := by
        simp only [wfFrom, Bool.and_eq_true, decide_eq_true_eq]
        exact ⟨⟨by omega, hv⟩, hr⟩
      rw [readFrom_entry _ _ _ _ _ (wfFrom_resume _ _ _ (Nat.le_refl _) hw),
        readFrom_resume _ _ _ _ _ hw, readFrom_cons]
      repeat' split
      all_goals first | rfl | omega
    · next hia =>
      split
      · next he =>
        subst he
        rw [readFrom_entry _ _ _ _ _ (wfFrom_resume _ _ _ (Nat.le_refl _) hr),
          readFrom_resume _ _ _ _ _ hr, readFrom_cons]
        repeat' split
        all_goals first | rfl | omega
      · next he =>
        rw [readFrom_cons, readFrom_cons, ih (a + 1) v hr (by omega)]
        repeat' split
        all_goals first | rfl | omega

theorem wfFrom_writeFrom (i : Nat) (b : Byte) :
    ∀ (m : Memory) (lo : Nat) (d : Byte), wfFrom lo d m = true → lo ≤ i →
      wfFrom lo d (writeFrom i b d m) = true := by
  intro m
  induction m with
  | nil =>
    intro lo d _ hlo
    rw [writeFrom]
    exact wfFrom_entry _ _ _ hlo (wfFrom_resume _ _ _ (Nat.le_refl _) rfl)
  | cons cell rest ih =>
    obtain ⟨a, v⟩ := cell
    intro lo d h hlo
    simp only [wfFrom, Bool.and_eq_true, decide_eq_true_eq] at h
    obtain ⟨⟨hla, hv⟩, hr⟩ := h
    rw [writeFrom]
    split
    · next hia =>
      refine wfFrom_entry _ _ _ hlo (wfFrom_resume _ _ _ (Nat.le_refl _) ?_)
      simp only [wfFrom, Bool.and_eq_true, decide_eq_true_eq]
      exact ⟨⟨by omega, hv⟩, hr⟩
    · next hia =>
      split
      · next he =>
        subst he
        exact wfFrom_entry _ _ _ hlo (wfFrom_resume _ _ _ (Nat.le_refl _) hr)
      · next he =>
        simp only [wfFrom, Bool.and_eq_true, decide_eq_true_eq]
        exact ⟨⟨hla, hv⟩, ih (a + 1) v hr (by omega)⟩

/-- A write is read back, and every other address reads as before. -/
theorem read_write {m : Memory} (h : m.wf = true) (i : Nat) (b : Byte) (j : Nat) :
    (m.write i b).read j = if j = i then b else m.read j :=
  readFrom_writeFrom i b j m 0 0x00#8 h (Nat.zero_le _)

/-- A write keeps the canonical form. -/
theorem wf_write {m : Memory} (h : m.wf = true) (i : Nat) (b : Byte) : (m.write i b).wf = true :=
  wfFrom_writeFrom i b m 0 0x00#8 h (Nat.zero_le _)

@[simp] theorem read_nil (i : Nat) : read [] i = 0x00#8 := rfl

@[simp] theorem wf_nil : wf [] = true := rfl

@[simp] theorem within_nil (n : Nat) : within n [] = true := rfl

/-- Every byte of an erased store is 0xFF. -/
theorem read_erased {n i : Nat} (h : i < n) : (erased n).read i = erasedByte := by
  simp [erased, read, readFrom_cons, h]

theorem read_erased_of_le {n i : Nat} (h : n ≤ i) : (erased n).read i = 0x00#8 := by
  simp [erased, read, readFrom_cons, Nat.not_lt.mpr h]

theorem wf_erased {n : Nat} (h : 0 < n) : (erased n).wf = true := by
  simp only [erased, wf, wfFrom, Bool.and_eq_true, decide_eq_true_eq]
  exact ⟨⟨Nat.zero_le _, by decide⟩, ⟨by omega, by decide⟩, trivial⟩

theorem within_erased (n : Nat) : within n (erased n) = true := by
  rw [within, read_erased_of_le (Nat.le_refl n)]
  simp [erased]

/-- What is listed at most at `n`, and reads as `e` at `n`, reads as `e` from `n` on. -/
theorem readFrom_of_le (n : Nat) (m : Memory) :
    ∀ d : Byte, m.all (fun cell => decide (cell.1 ≤ n)) = true → ∀ i, n ≤ i →
      readFrom d m i = readFrom d m n := by
  induction m with
  | nil => intros; rfl
  | cons cell rest ih =>
    obtain ⟨a, v⟩ := cell
    intro d h i hi
    simp only [List.all_cons, Bool.and_eq_true, decide_eq_true_eq] at h
    rw [readFrom_cons, readFrom_cons, if_neg (by omega), if_neg (by omega)]
    exact ih v h.2 i hi

/-- Outside a store of `n` bytes everything reads as unlisted. -/
theorem read_of_within {n : Nat} {m : Memory} (h : within n m = true) {i : Nat} (hi : n ≤ i) :
    m.read i = 0x00#8 := by
  simp only [within, Bool.and_eq_true, decide_eq_true_eq] at h
  exact (readFrom_of_le n m _ h.1 i hi).trans h.2

theorem all_le_of_read (n : Nat) (e : Byte) :
    ∀ (m : Memory) (lo : Nat) (d : Byte), wfFrom lo d m = true →
      (∀ i, n ≤ i → readFrom d m i = e) → m.all (fun cell => decide (cell.1 ≤ n)) = true := by
  intro m
  induction m with
  | nil => intros; rfl
  | cons cell rest ih =>
    obtain ⟨a, v⟩ := cell
    intro lo d h hr
    simp only [wfFrom, Bool.and_eq_true, decide_eq_true_eq] at h
    have hle : a ≤ n := by
      by_contra hgt
      have h1 := hr (a - 1) (by omega)
      have h2 := hr a (by omega)
      rw [readFrom_cons, if_pos (by omega)] at h1
      rw [readFrom_cons, if_neg (by omega), readFrom_of_lt h.2 (by omega)] at h2
      exact h.1.2 (h2.trans h1.symm)
    simp only [List.all_cons, Bool.and_eq_true, decide_eq_true_eq]
    refine ⟨hle, ih (a + 1) v h.2 fun i hi => ?_⟩
    have := hr i hi
    rwa [readFrom_cons, if_neg (by omega)] at this

/-- In canonical form, a store lists nothing beyond `n` exactly when it reads as unlisted there. -/
theorem within_iff {n : Nat} {m : Memory} (h : m.wf = true) :
    within n m = true ↔ ∀ i, n ≤ i → m.read i = 0x00#8 := by
  constructor
  · exact fun hw i hi => read_of_within hw hi
  · intro hr
    simp only [within, Bool.and_eq_true, decide_eq_true_eq]
    exact ⟨all_le_of_read n _ m 0 _ h hr, hr n (Nat.le_refl _)⟩

/-- A write inside a store of `n` bytes lists nothing beyond it. -/
theorem within_write {n : Nat} {m : Memory} (h : m.wf = true) (hw : within n m = true) {i : Nat}
    (hi : i < n) (b : Byte) : within n (m.write i b) = true := by
  rw [within_iff (wf_write h i b)]
  intro j hj
  rw [read_write h, if_neg (by omega)]
  exact read_of_within hw hj

theorem wfFrom_ext :
    ∀ (m m' : Memory) (lo : Nat) (d : Byte), wfFrom lo d m = true → wfFrom lo d m' = true →
      (∀ i, lo ≤ i → readFrom d m i = readFrom d m' i) → m = m' := by
  intro m
  induction m with
  | nil =>
    intro m' lo d _ h' hr
    cases m' with
    | nil => rfl
    | cons cell rest =>
      obtain ⟨a, v⟩ := cell
      simp only [wfFrom, Bool.and_eq_true, decide_eq_true_eq] at h'
      have := hr a h'.1.1
      rw [readFrom_nil, readFrom_cons, if_neg (by omega), readFrom_of_lt h'.2 (by omega)] at this
      exact absurd this.symm h'.1.2
  | cons cell rest ih =>
    obtain ⟨a, v⟩ := cell
    intro m' lo d h h' hr
    simp only [wfFrom, Bool.and_eq_true, decide_eq_true_eq] at h
    cases m' with
    | nil =>
      have := hr a h.1.1
      rw [readFrom_nil, readFrom_cons, if_neg (by omega), readFrom_of_lt h.2 (by omega)] at this
      exact absurd this h.1.2
    | cons cell' rest' =>
      obtain ⟨a', v'⟩ := cell'
      simp only [wfFrom, Bool.and_eq_true, decide_eq_true_eq] at h'
      have ha : a = a' := by
        rcases Nat.lt_trichotomy a a' with hlt | heq | hgt
        · have := hr a h.1.1
          rw [readFrom_cons, readFrom_cons, if_neg (by omega), if_pos hlt,
            readFrom_of_lt h.2 (by omega)] at this
          exact absurd this h.1.2
        · exact heq
        · have := hr a' h'.1.1
          rw [readFrom_cons, readFrom_cons, if_pos hgt, if_neg (by omega),
            readFrom_of_lt h'.2 (by omega)] at this
          exact absurd this.symm h'.1.2
      subst ha
      have hv : v = v' := by
        have := hr a h.1.1
        rwa [readFrom_cons, readFrom_cons, if_neg (by omega), if_neg (by omega),
          readFrom_of_lt h.2 (by omega), readFrom_of_lt h'.2 (by omega)] at this
      subst hv
      rw [ih rest' (a + 1) v h.2 h'.2 fun i hi => ?_]
      have := hr i (by omega)
      rwa [readFrom_cons, readFrom_cons, if_neg (by omega), if_neg (by omega)] at this

/-- EQUAL STORES ARE EQUAL DATA: two stores in canonical form that read the same are the same
list. -/
theorem ext_of_wf {m m' : Memory} (h : m.wf = true) (h' : m'.wf = true)
    (hr : ∀ i, m.read i = m'.read i) : m = m' :=
  wfFrom_ext m m' 0 0x00#8 h h' fun i _ => hr i

end Sys2Proof.Machine.Memory
end

