-- ==== Sys2Proof/Laws/State.lean ====
section
/-! SUPPORT. One lemma per field of State per update of it, each true by definition. -/

namespace Sys2Proof.Machine

@[simp] theorem append_cfg (s : State) (e : Event) : (s.append e).cfg = s.cfg := rfl
@[simp] theorem append_ce (s : State) (e : Event) : (s.append e).ce = s.ce := rfl
@[simp] theorem append_si (s : State) (e : Event) : (s.append e).si = s.si := rfl
@[simp] theorem append_so (s : State) (e : Event) : (s.append e).so = s.so := rfl
@[simp] theorem append_phase (s : State) (e : Event) : (s.append e).phase = s.phase := rfl
@[simp] theorem append_ir (s : State) (e : Event) : (s.append e).ir = s.ir := rfl
@[simp] theorem append_irCount (s : State) (e : Event) : (s.append e).irCount = s.irCount := rfl
@[simp] theorem append_wel (s : State) (e : Event) : (s.append e).wel = s.wel := rfl
@[simp] theorem append_op (s : State) (e : Event) : (s.append e).op = s.op := rfl
@[simp] theorem append_store (s : State) (e : Event) : (s.append e).store = s.store := rfl
@[simp] theorem append_log (s : State) (e : Event) : (s.append e).log = s.log ++ [e] := rfl
@[simp] theorem append_input (s : State) (e : Event) : (s.append e).input = s.input := rfl
@[simp] theorem append_returned (s : State) (e : Event) : (s.append e).returned = s.returned := rfl

@[simp] theorem select_cfg (s : State) : (select s).cfg = s.cfg := rfl
@[simp] theorem select_ce (s : State) : (select s).ce = .low := rfl
@[simp] theorem select_si (s : State) : (select s).si = s.si := rfl
@[simp] theorem select_so (s : State) : (select s).so = s.so := rfl
@[simp] theorem select_phase (s : State) : (select s).phase = .command := rfl
@[simp] theorem select_ir (s : State) : (select s).ir = 0x00#8 := rfl
@[simp] theorem select_irCount (s : State) : (select s).irCount = 8 := rfl
@[simp] theorem select_wel (s : State) : (select s).wel = s.wel := rfl
@[simp] theorem select_op (s : State) : (select s).op = s.op := rfl
@[simp] theorem select_store (s : State) : (select s).store = s.store := rfl
@[simp] theorem select_log (s : State) : (select s).log = s.log ++ [.enableToggle] := rfl
@[simp] theorem select_input (s : State) : (select s).input = s.input := rfl
@[simp] theorem select_returned (s : State) : (select s).returned = s.returned := rfl

@[simp] theorem deselect_cfg (s : State) : (deselect s).cfg = s.cfg := rfl
@[simp] theorem deselect_ce (s : State) : (deselect s).ce = .high := rfl
@[simp] theorem deselect_si (s : State) : (deselect s).si = s.si := rfl
@[simp] theorem deselect_so (s : State) : (deselect s).so = s.so := rfl
@[simp] theorem deselect_phase (s : State) : (deselect s).phase = .deselected := rfl
@[simp] theorem deselect_ir (s : State) : (deselect s).ir = 0x00#8 := rfl
@[simp] theorem deselect_irCount (s : State) : (deselect s).irCount = 0 := rfl
@[simp] theorem deselect_wel (s : State) : (deselect s).wel = s.wel := rfl
@[simp] theorem deselect_op (s : State) : (deselect s).op = none := rfl
@[simp] theorem deselect_store (s : State) : (deselect s).store = s.store := rfl
@[simp] theorem deselect_log (s : State) : (deselect s).log = s.log ++ [.enableToggle] := rfl
@[simp] theorem deselect_input (s : State) : (deselect s).input = s.input := rfl
@[simp] theorem deselect_returned (s : State) : (deselect s).returned = s.returned := rfl

@[simp] theorem shiftOpcode_cfg (s : State) : (shiftOpcode s).cfg = s.cfg := rfl
@[simp] theorem shiftOpcode_ce (s : State) : (shiftOpcode s).ce = s.ce := rfl
@[simp] theorem shiftOpcode_si (s : State) : (shiftOpcode s).si = s.si := rfl
@[simp] theorem shiftOpcode_so (s : State) : (shiftOpcode s).so = s.so := rfl
@[simp] theorem shiftOpcode_phase (s : State) : (shiftOpcode s).phase = s.phase := rfl
@[simp] theorem shiftOpcode_ir (s : State) : (shiftOpcode s).ir = setBit s.ir (s.irCount - 1) (bitOf s.si) := rfl
@[simp] theorem shiftOpcode_irCount (s : State) : (shiftOpcode s).irCount = s.irCount - 1 := rfl
@[simp] theorem shiftOpcode_wel (s : State) : (shiftOpcode s).wel = s.wel := rfl
@[simp] theorem shiftOpcode_op (s : State) : (shiftOpcode s).op = s.op := rfl
@[simp] theorem shiftOpcode_store (s : State) : (shiftOpcode s).store = s.store := rfl
@[simp] theorem shiftOpcode_log (s : State) : (shiftOpcode s).log = s.log := rfl
@[simp] theorem shiftOpcode_input (s : State) : (shiftOpcode s).input = s.input := rfl
@[simp] theorem shiftOpcode_returned (s : State) : (shiftOpcode s).returned = s.returned := rfl

@[simp] theorem eraseStore_cfg (s : State) : (eraseStore s).cfg = s.cfg := rfl
@[simp] theorem eraseStore_ce (s : State) : (eraseStore s).ce = s.ce := rfl
@[simp] theorem eraseStore_si (s : State) : (eraseStore s).si = s.si := rfl
@[simp] theorem eraseStore_so (s : State) : (eraseStore s).so = s.so := rfl
@[simp] theorem eraseStore_phase (s : State) : (eraseStore s).phase = s.phase := rfl
@[simp] theorem eraseStore_ir (s : State) : (eraseStore s).ir = s.ir := rfl
@[simp] theorem eraseStore_irCount (s : State) : (eraseStore s).irCount = s.irCount := rfl
@[simp] theorem eraseStore_wel (s : State) : (eraseStore s).wel = s.wel := rfl
@[simp] theorem eraseStore_op (s : State) : (eraseStore s).op = s.op := rfl
@[simp] theorem eraseStore_store (s : State) : (eraseStore s).store = Memory.erased s.cfg.capacity := rfl
@[simp] theorem eraseStore_log (s : State) : (eraseStore s).log = s.log := rfl
@[simp] theorem eraseStore_input (s : State) : (eraseStore s).input = s.input := rfl
@[simp] theorem eraseStore_returned (s : State) : (eraseStore s).returned = s.returned := rfl

@[simp] theorem withFetchWord_cfg (s : State) (nbits w : Nat) : (s.withFetchWord nbits w).cfg = s.cfg := rfl
@[simp] theorem withFetchWord_ce (s : State) (nbits w : Nat) : (s.withFetchWord nbits w).ce = s.ce := rfl
@[simp] theorem withFetchWord_si (s : State) (nbits w : Nat) : (s.withFetchWord nbits w).si = s.si := rfl
@[simp] theorem withFetchWord_so (s : State) (nbits w : Nat) : (s.withFetchWord nbits w).so = s.so := rfl
@[simp] theorem withFetchWord_phase (s : State) (nbits w : Nat) : (s.withFetchWord nbits w).phase = s.phase := rfl
@[simp] theorem withFetchWord_ir (s : State) (nbits w : Nat) : (s.withFetchWord nbits w).ir = s.ir := rfl
@[simp] theorem withFetchWord_irCount (s : State) (nbits w : Nat) : (s.withFetchWord nbits w).irCount = s.irCount := rfl
@[simp] theorem withFetchWord_wel (s : State) (nbits w : Nat) : (s.withFetchWord nbits w).wel = s.wel := rfl
@[simp] theorem withFetchWord_op (s : State) (nbits w : Nat) : (s.withFetchWord nbits w).op = s.op := rfl
@[simp] theorem withFetchWord_store (s : State) (nbits w : Nat) : (s.withFetchWord nbits w).store = s.store := rfl
@[simp] theorem withFetchWord_log (s : State) (nbits w : Nat) : (s.withFetchWord nbits w).log = s.log := rfl
@[simp] theorem withFetchWord_input (s : State) (nbits w : Nat) : (s.withFetchWord nbits w).input = wordRequest s.cfg nbits w :: s.input := rfl
@[simp] theorem withFetchWord_returned (s : State) (nbits w : Nat) : (s.withFetchWord nbits w).returned = s.returned := rfl

@[simp] theorem freshState_cfg (c : Config) : (freshState c).cfg = c := rfl
@[simp] theorem freshState_ce (c : Config) : (freshState c).ce = .high := rfl
@[simp] theorem freshState_si (c : Config) : (freshState c).si = .low := rfl
@[simp] theorem freshState_so (c : Config) : (freshState c).so = .low := rfl
@[simp] theorem freshState_phase (c : Config) : (freshState c).phase = .deselected := rfl
@[simp] theorem freshState_ir (c : Config) : (freshState c).ir = 0x00#8 := rfl
@[simp] theorem freshState_irCount (c : Config) : (freshState c).irCount = 0 := rfl
@[simp] theorem freshState_wel (c : Config) : (freshState c).wel = false := rfl
@[simp] theorem freshState_op (c : Config) : (freshState c).op = none := rfl
@[simp] theorem freshState_store (c : Config) : (freshState c).store = [] := rfl
@[simp] theorem freshState_log (c : Config) : (freshState c).log = [] := rfl
@[simp] theorem freshState_input (c : Config) : (freshState c).input = [] := rfl
@[simp] theorem freshState_returned (c : Config) : (freshState c).returned = [] := rfl

end Sys2Proof.Machine
end

