-- ==== Sys2Proof/Laws/HostActions.lean ====
section
/-! SUPPORT. What one host action can do, said once: `Acts` lists every case with its guard, and
`acts_of_act` says that an action that answers does one of them. Beside it, what each shared operation
below an action can do, and how a sequence of actions splits. -/

namespace Sys2Proof.Machine

/-! ## Small facts -/

@[simp] theorem lastWasInput_append (s : State) (e : Event) :
    lastWasInput (s.append e) = decide (e = Event.inputToggle) := by
  simp [lastWasInput]

/-- The latch allows a command exactly when it needs no latch or the latch is set. -/
theorem latchAllows_iff (s : State) (c : Command) :
    latchAllows s c = true ↔ (needsLatch c = true → s.wel = true) := by
  unfold latchAllows
  cases needsLatch c <;> simp

theorem memRead_of_lt {s : State} {i : Nat} (h : i < s.cfg.capacity) :
    memRead s i = .ok (s.store.read i) := if_pos h

/-- A read answers inside the store only, with the byte there. -/
theorem memRead_ok {s : State} {i : Nat} {v : Byte} (h : memRead s i = .ok v) :
    i < s.cfg.capacity ∧ v = s.store.read i := by
  unfold memRead at h
  split at h
  · cases h; exact ⟨by assumption, rfl⟩
  · cases h

theorem memWrite_of_lt {s : State} {i : Nat} (h : i < s.cfg.capacity) (v : Byte) :
    memWrite s i v = .done .ok { s with store := s.store.write i v } := if_pos h

/-! ## Committing a Write -/

/-- The bytes `k`, `k + 1`, … of a stream, `n` of them, have destinations. -/
def HasDests (c : Config) (addr k n : Nat) : Prop :=
  ∀ j, j < n → ∃ i, dest c addr (k + j) = .ok i

/-- A commit whose bytes have destinations programs them and changes nothing else (44_write.md
R197). -/
theorem commitFrom_eq (addr : Nat) (vs : List Byte) :
    ∀ (k : Nat) (s : State), s.cfg.Legal → HasDests s.cfg addr k vs.length →
      commitFrom addr k vs s =
        .done .ok { s with store := programmed s.cfg addr k vs s.store } := by
  induction vs with
  | nil => intros; rfl
  | cons v vs ih =>
    intro k s hl h
    obtain ⟨i, hi⟩ := h 0 (by simp)
    rw [Nat.add_zero] at hi
    rw [commitFrom, programmed, hi]
    simp only [memWrite_of_lt (dest_lt hl hi)]
    refine ih (k + 1) _ hl fun j hj => ?_
    obtain ⟨i', hi'⟩ := h (j + 1) (by simpa using hj)
    exact ⟨i', by rw [← hi']; congr 1; omega⟩

theorem hasDests_cons {c : Config} {addr k n i : Nat} (hi : dest c addr k = .ok i) :
    HasDests c addr k (n + 1) ↔ HasDests c addr (k + 1) n := by
  constructor
  · intro h j hj
    have := h (j + 1) (by omega)
    rwa [show k + (j + 1) = k + 1 + j by omega] at this
  · intro h j hj
    cases j with
    | zero => exact ⟨i, hi⟩
    | succ j =>
      rw [show k + (j + 1) = k + 1 + j by omega]
      exact h j (by omega)

/-- A commit that succeeds had destinations and programmed the bytes; one that fails had not, and
returns ProtocolViolation. -/
theorem commitFrom_done (addr : Nat) (vs : List Byte) :
    ∀ (k : Nat) (s : State) (r : Result) (t : State), commitFrom addr k vs s = .done r t →
      (r = .ok ∧ HasDests s.cfg addr k vs.length ∧
        t = { s with store := programmed s.cfg addr k vs s.store }) ∨
      (r = .err .protocolViolation ∧ ¬HasDests s.cfg addr k vs.length) := by
  induction vs with
  | nil =>
    intro k s r t h
    cases h
    exact .inl ⟨rfl, fun j hj => absurd hj (by simp), rfl⟩
  | cons v vs ih =>
    intro k s r t h
    rw [commitFrom] at h
    cases hd : dest s.cfg addr k with
    | error e =>
      rw [hd] at h
      cases h
      refine .inr ⟨by rw [dest_error hd], fun hn => ?_⟩
      obtain ⟨i, hi⟩ := hn 0 (by simp)
      rw [Nat.add_zero, hd] at hi
      cases hi
    | ok i =>
      rw [hd] at h
      by_cases hlt : i < s.cfg.capacity
      · simp only [memWrite_of_lt hlt] at h
        rw [List.length_cons, hasDests_cons hd, programmed, hd]
        exact ih _ _ _ _ h
      · simp only [memWrite, if_neg hlt] at h
        cases h

/-- What programming leaves canonical. -/
theorem programmed_wf (c : Config) (addr : Nat) (vs : List Byte) :
    ∀ (k : Nat) (m : Memory), m.wf = true → (programmed c addr k vs m).wf = true := by
  induction vs with
  | nil => intro k m h; exact h
  | cons v vs ih =>
    intro k m h
    rw [programmed]
    split
    · exact ih _ _ (Memory.wf_write h _ _)
    · exact ih _ _ h

theorem programmed_within {c : Config} (hc : c.Legal) (addr : Nat) (vs : List Byte) :
    ∀ (k : Nat) (m : Memory), m.wf = true → m.within c.capacity = true →
      (programmed c addr k vs m).within c.capacity = true := by
  induction vs with
  | nil => intro k m _ h; exact h
  | cons v vs ih =>
    intro k m h hw
    rw [programmed]
    split
    · next i hi =>
      exact ih _ _ (Memory.wf_write h _ _) (Memory.within_write h hw (dest_lt hc hi) _)
    · exact ih _ _ h hw

/-- A byte that is no destination of the stream reads as before. -/
theorem programmed_read_other (c : Config) (addr : Nat) (vs : List Byte) (i : Nat) :
    ∀ (k : Nat) (m : Memory), m.wf = true →
      (∀ j, j < vs.length → dest c addr (k + j) ≠ .ok i) →
      (programmed c addr k vs m).read i = m.read i := by
  induction vs with
  | nil => intros; rfl
  | cons v vs ih =>
    intro k m h hne
    have htail : ∀ j, j < vs.length → dest c addr (k + 1 + j) ≠ .ok i := fun j hj => by
      have := hne (j + 1) (by simpa using hj)
      rwa [show k + (j + 1) = k + 1 + j by omega] at this
    rw [programmed]
    split
    · next i' hi' =>
      rw [ih _ _ (Memory.wf_write h _ _) htail, Memory.read_write h, if_neg]
      intro heq
      subst heq
      exact hne 0 (by simp) hi'
    · exact ih _ _ h htail

/-- The destination of a stream's byte reads as that byte; the destinations are distinct
(20_memory.md R70). -/
theorem programmed_read (c : Config) (addr : Nat) (vs : List Byte) :
    ∀ (k : Nat) (m : Memory), m.wf = true → k + vs.length ≤ c.capacity →
      ∀ j i, j < vs.length → dest c addr (k + j) = .ok i →
        vs[j]? = some ((programmed c addr k vs m).read i) := by
  induction vs with
  | nil => intro k m _ _ j i hj; exact absurd hj (by simp)
  | cons v vs ih =>
    intro k m h hk j i hj hi
    simp only [List.length_cons] at hk hj
    cases j with
    | zero =>
      rw [Nat.add_zero] at hi
      rw [programmed, hi]
      rw [programmed_read_other _ _ _ _ _ _ (Memory.wf_write h _ _), Memory.read_write h, if_pos rfl]
      · rfl
      · intro j hj heq
        have := dest_injective (by omega) (by omega) hi heq
        omega
    | succ j =>
      rw [show k + (j + 1) = k + 1 + j by omega] at hi
      rw [programmed, List.getElem?_cons_succ]
      split
      · exact ih _ _ (Memory.wf_write h _ _) (by omega) j i (by omega) hi
      · exact ih _ _ h (by omega) j i (by omega) hi

/-! ## What one action can do -/

/-- Every case of a host action that answers: the action, the state, the result, the state after,
with the guard under which it is the case (60_exceptions.md R261, R265). -/
inductive Acts : HostAction → State → Result → State → Prop where
  | getter (p : PinName) (s : State) : Acts (.getter p) s (.pin (pinLevel s p)) s
  | wait (s : State) : Acts (.event .waitForWrite) s .ok (s.append .waitForWrite)
  | toggleDeselected {s : State} (h : s.phase = .deselected) :
      Acts (.event .inputToggle) s (.err .protocolViolation) s
  | toggleTwice {s : State} (h : s.phase ≠ .deselected) (hl : lastWasInput s = true) :
      Acts (.event .inputToggle) s (.err .protocolViolation) s
  | toggle {s : State} (h : s.phase ≠ .deselected) (hl : lastWasInput s = false) :
      Acts (.event .inputToggle) s .ok (State.append { s with si := toggled s.si } .inputToggle)
  | select {s : State} (h : s.phase = .deselected) :
      Acts (.event .enableToggle) s .ok (select s)
  | enableMidOpcode {s : State} (h : s.phase = .command) :
      Acts (.event .enableToggle) s (.err .protocolViolation) s
  | endReadEarly {s : State} {r : ReadOp} (h : s.phase = .operation) (ho : s.op = some (.read r))
      (hi : r.acc.Incomplete s.cfg) :
      Acts (.event .enableToggle) s (.err .protocolViolation) (deselect s)
  | endRead {s : State} {r : ReadOp} (h : s.phase = .operation) (ho : s.op = some (.read r))
      (hi : ¬r.acc.Incomplete s.cfg) : Acts (.event .enableToggle) s .ok (deselect s)
  | endWriteEarly {s : State} {w : WriteOp} (h : s.phase = .operation)
      (ho : s.op = some (.write w)) (hi : w.acc.Incomplete s.cfg) :
      Acts (.event .enableToggle) s (.err .protocolViolation) (deselect s)
  | endWritePast {s : State} {w : WriteOp} (h : s.phase = .operation)
      (ho : s.op = some (.write w)) (hi : ¬w.acc.Incomplete s.cfg) (ha : w.aborted = false)
      (hd : ¬HasDests s.cfg w.acc.value 0 (filledBytes w).length) :
      Acts (.event .enableToggle) s (.err .protocolViolation) (deselect s)
  | endWriteAborted {s : State} {w : WriteOp} (h : s.phase = .operation)
      (ho : s.op = some (.write w)) (hi : ¬w.acc.Incomplete s.cfg) (ha : w.aborted = true) :
      Acts (.event .enableToggle) s .ok (deselect { s with wel := false })
  | endWrite {s : State} {w : WriteOp} (h : s.phase = .operation) (ho : s.op = some (.write w))
      (hi : ¬w.acc.Incomplete s.cfg) (ha : w.aborted = false)
      (hd : HasDests s.cfg w.acc.value 0 (filledBytes w).length) :
      Acts (.event .enableToggle) s .ok
        (deselect
          { s with
            store := programmed s.cfg w.acc.value 0 (filledBytes w) s.store, wel := false })
  | endWriteEnable {s : State} (h : s.phase = .operation) (ho : s.op = some .writeEnable)
      (hw : s.wel = false) : Acts (.event .enableToggle) s .ok (deselect { s with wel := true })
  | endWriteEnableTwice {s : State} (h : s.phase = .operation) (ho : s.op = some .writeEnable)
      (hw : s.wel = true) :
      Acts (.event .enableToggle) s (.err .protocolViolation) (deselect s)
  | endChipErase {s : State} (h : s.phase = .operation) (ho : s.op = some .chipErase) :
      Acts (.event .enableToggle) s .ok (deselect { eraseStore s with wel := false })
  | clockDeselected {s : State} (h : s.phase = .deselected) :
      Acts (.event .clockPulse) s (.err .protocolViolation) s
  | opcodeBit {s : State} (h : s.phase = .command) (hc : 1 < s.irCount) (hc' : s.irCount ≤ 8) :
      Acts (.event .clockPulse) s .ok ((shiftOpcode s).append .clockPulse)
  | opcodeUnknown {s : State} (h : s.phase = .command) (hc : s.irCount = 1)
      (hl : lookupOpcode (shiftOpcode s).ir = none) :
      Acts (.event .clockPulse) s (.err (.unknownOpcode (shiftOpcode s).ir)) s
  | opcodeNotEnabled {s : State} {c : Command} (h : s.phase = .command) (hc : s.irCount = 1)
      (hl : lookupOpcode (shiftOpcode s).ir = some c) (hw : latchAllows s c = false) :
      Acts (.event .clockPulse) s (.err .notWriteEnabled) s
  | opcode {s : State} {c : Command} (h : s.phase = .command) (hc : s.irCount = 1)
      (hl : lookupOpcode (shiftOpcode s).ir = some c) (hw : latchAllows s c = true) :
      Acts (.event .clockPulse) s .ok
        (State.append
          { shiftOpcode s with op := some (newOperation s.cfg c), phase := .operation } .clockPulse)
  | readAddress {s : State} {r : ReadOp} (h : s.phase = .operation) (ho : s.op = some (.read r))
      (hi : r.acc.Incomplete s.cfg) :
      Acts (.event .clockPulse) s .ok
        (State.append { s with op := some (.read { r with acc := clockedAddr s r.acc }) }
          .clockPulse)
  | writeAddress {s : State} {w : WriteOp} (h : s.phase = .operation)
      (ho : s.op = some (.write w)) (hi : w.acc.Incomplete s.cfg) :
      Acts (.event .clockPulse) s .ok
        (State.append { s with op := some (.write { w with acc := clockedAddr s w.acc }) }
          .clockPulse)
  | readPast {s : State} {r : ReadOp} {e : Error} (h : s.phase = .operation)
      (ho : s.op = some (.read r)) (hi : ¬r.acc.Incomplete s.cfg)
      (hd : dest s.cfg r.acc.value (byteIndex r.nout) = .error e) :
      Acts (.event .clockPulse) s (.err .protocolViolation) s
  | readData {s : State} {r : ReadOp} {i : Nat} (h : s.phase = .operation)
      (ho : s.op = some (.read r)) (hi : ¬r.acc.Incomplete s.cfg)
      (hd : dest s.cfg r.acc.value (byteIndex r.nout) = .ok i) (hs : i < s.cfg.capacity) :
      Acts (.event .clockPulse) s .ok
        (State.append
          { s with
            so := pinOf ((s.store.read i).getLsbD (bitIndex r.nout))
            op := some (.read { r with nout := r.nout + 1 }) }
          .clockPulse)
  | writeFull {s : State} {w : WriteOp} (h : s.phase = .operation) (ho : s.op = some (.write w))
      (hi : ¬w.acc.Incomplete s.cfg) (hb : w.nin % 8 = 0) (hf : s.cfg.wbufCap ≤ byteIndex w.nin) :
      Acts (.event .clockPulse) s (.err .writeBufferFull) s
  | writePast {s : State} {w : WriteOp} {e : Error} (h : s.phase = .operation)
      (ho : s.op = some (.write w)) (hi : ¬w.acc.Incomplete s.cfg) (hb : w.nin % 8 = 0)
      (hf : byteIndex w.nin < s.cfg.wbufCap)
      (hd : dest s.cfg w.acc.value (byteIndex w.nin) = .error e) :
      Acts (.event .clockPulse) s (.err .protocolViolation) s
  | writeNonErased {s : State} {w : WriteOp} {i : Nat} (h : s.phase = .operation)
      (ho : s.op = some (.write w)) (hi : ¬w.acc.Incomplete s.cfg) (hb : w.nin % 8 = 0)
      (hf : byteIndex w.nin < s.cfg.wbufCap)
      (hd : dest s.cfg w.acc.value (byteIndex w.nin) = .ok i) (hs : i < s.cfg.capacity)
      (he : s.store.read i ≠ erasedByte) :
      Acts (.event .clockPulse) s (.err (.nonErasedWrite i))
        (State.append { s with op := some (.write { w with aborted := true }) } .clockPulse)
  | writeData {s : State} {w : WriteOp} (h : s.phase = .operation)
      (ho : s.op = some (.write w)) (hi : ¬w.acc.Incomplete s.cfg)
      (hb : w.nin % 8 = 0 → byteIndex w.nin < s.cfg.wbufCap ∧
        ∃ i, dest s.cfg w.acc.value (byteIndex w.nin) = .ok i ∧ i < s.cfg.capacity ∧
          s.store.read i = erasedByte) :
      Acts (.event .clockPulse) s .ok
        (State.append
          { s with
            op := some (.write
              { w with
                buf := w.buf.modify (byteIndex w.nin)
                  (fun v => setBit v (bitIndex w.nin) (bitOf s.si))
                nin := w.nin + 1 }) }
          .clockPulse)
  | opcodeOnlyClock {s : State} (h : s.phase = .operation)
      (ho : s.op = some .writeEnable ∨ s.op = some .chipErase) :
      Acts (.event .clockPulse) s (.err .protocolViolation) s

/-- The three cases of the chip-enable handler of a Write whose address is complete. -/
theorem writeEnd_done {w : WriteOp} {s : State} {r : Result} {t : State}
    (h : writeEnd w s = .done r t) :
    (r = .err .protocolViolation ∧ w.aborted = false ∧
        ¬HasDests s.cfg w.acc.value 0 (filledBytes w).length) ∨
      (r = .ok ∧ w.aborted = true ∧ t = { s with wel := false }) ∨
      (r = .ok ∧ w.aborted = false ∧ HasDests s.cfg w.acc.value 0 (filledBytes w).length ∧
        t = { s with
          store := programmed s.cfg w.acc.value 0 (filledBytes w) s.store, wel := false }) := by
  unfold writeEnd at h
  cases ha : w.aborted with
  | true =>
    rw [ha] at h
    cases h
    exact .inr (.inl ⟨rfl, rfl, rfl⟩)
  | false =>
    rw [ha] at h
    simp only [Bool.false_eq_true, if_false] at h
    split at h
    · next t' hc =>
      cases h
      rcases commitFrom_done _ _ _ _ _ _ hc with ⟨-, hd, ht⟩ | ⟨hr, -⟩
      · exact .inr (.inr ⟨rfl, rfl, hd, by rw [ht]⟩)
      · cases hr
    · next hne =>
      rcases commitFrom_done _ _ _ _ _ _ h with ⟨hr, -, -⟩ | ⟨hr, hd⟩
      · subst hr; exact absurd h (hne t)
      · exact .inl ⟨hr, rfl, hd⟩

/-- EVERY ACTION THAT ANSWERS DOES ONE OF THE CASES. -/
theorem acts_of_act {a : HostAction} {s : State} {r : Result} {t : State}
    (h : act a s = .done r t) : Acts a s r t := by
  cases a with
  | getter p => cases h; exact .getter p s
  | event e =>
    cases e with
    | waitForWrite => cases h; exact .wait s
    | inputToggle =>
      simp only [act, actEvent, toggleSerialInput] at h
      split at h
      · cases h; exact .toggleDeselected (by assumption)
      · split at h
        · cases h; exact .toggleTwice (by assumption) (by assumption)
        · next hl => cases h; exact .toggle (by assumption) (by simpa using hl)
    | enableToggle =>
      simp only [act, actEvent, toggleChipEnable] at h
      split at h
      · cases h; exact .select (by assumption)
      · cases h; exact .enableMidOpcode (by assumption)
      · next hp =>
        simp only [endCommand, opOnChipEnable] at h
        cases ho : s.op with
        | none => rw [ho] at h; cases h
        | some o =>
          rw [ho] at h
          cases o with
          | read r =>
            simp only at h
            by_cases hi : r.acc.Incomplete s.cfg
            · rw [if_pos hi] at h; cases h; exact .endReadEarly hp ho hi
            · rw [if_neg hi] at h; cases h; exact .endRead hp ho hi
          | write w =>
            simp only at h
            by_cases hi : w.acc.Incomplete s.cfg
            · rw [if_pos hi] at h; cases h; exact .endWriteEarly hp ho hi
            · rw [if_neg hi] at h
              cases hw : writeEnd w s with
              | stuck f => rw [hw] at h; cases h
              | done r' t' =>
                rw [hw] at h
                rcases writeEnd_done hw with ⟨hr, ha, hd⟩ | ⟨hr, ha, ht⟩ | ⟨hr, ha, hd, ht⟩
                · subst hr; cases h; exact .endWritePast hp ho hi ha hd
                · subst hr ht; cases h; exact .endWriteAborted hp ho hi ha
                · subst hr ht; cases h; exact .endWrite hp ho hi ha hd
          | writeEnable =>
            simp only [wrenEnd] at h
            cases hw : s.wel with
            | true => rw [hw] at h; cases h; exact .endWriteEnableTwice hp ho hw
            | false => rw [hw] at h; cases h; exact .endWriteEnable hp ho hw
          | chipErase => cases h; exact .endChipErase hp ho
    | clockPulse =>
      simp only [act, actEvent, toggleClock] at h
      split at h
      · cases h; exact .clockDeselected (by assumption)
      · next hp =>
        simp only [commandClock] at h
        split at h
        · cases h
        · next hc =>
          split at h
          · next h1 =>
            simp only [dispatchOpcode] at h
            cases hl : lookupOpcode (shiftOpcode s).ir with
            | none => rw [hl] at h; cases h; exact .opcodeUnknown hp h1 hl
            | some c =>
              rw [hl] at h
              have hls : latchAllows (shiftOpcode s) c = latchAllows s c := rfl
              simp only [hls] at h
              cases hw : latchAllows s c with
              | true => rw [hw] at h; cases h; exact .opcode hp h1 hl hw
              | false => rw [hw] at h; cases h; exact .opcodeNotEnabled hp h1 hl hw
          · cases h; exact .opcodeBit hp (by omega) (by omega)
      · next hp =>
        simp only [opOnClock] at h
        cases ho : s.op with
        | none => rw [ho] at h; cases h
        | some o =>
          rw [ho] at h
          cases o with
          | read r =>
            simp only at h
            split at h
            · cases h; exact .readAddress hp ho (by assumption)
            · next hi =>
              simp only [readClock] at h
              cases hd : dest s.cfg r.acc.value (byteIndex r.nout) with
              | error e => rw [hd] at h; cases h; cases dest_error hd; exact .readPast hp ho hi hd
              | ok i =>
                rw [hd] at h
                simp only at h
                by_cases hs : i < s.cfg.capacity
                · rw [memRead_of_lt hs] at h
                  cases h
                  exact .readData hp ho hi hd hs
                · rw [memRead, if_neg hs] at h
                  cases h
          | write w =>
            simp only at h
            split at h
            · cases h; exact .writeAddress hp ho (by assumption)
            · next hi =>
              simp only [writeClock] at h
              split at h
              · next hb =>
                split at h
                · cases h; exact .writeFull hp ho hi hb (by assumption)
                · next hf =>
                  cases hd : dest s.cfg w.acc.value (byteIndex w.nin) with
                  | error e =>
                    rw [hd] at h
                    cases h
                    cases dest_error hd
                    exact .writePast hp ho hi hb (by omega) hd
                  | ok i =>
                    rw [hd] at h
                    simp only at h
                    by_cases hs : i < s.cfg.capacity
                    · rw [memRead_of_lt hs] at h
                      simp only [isErased, decide_eq_true_eq] at h
                      split at h
                      · next he =>
                        cases h
                        exact .writeData hp ho hi fun _ => ⟨by omega, i, hd, hs, he⟩
                      · next he =>
                        cases h
                        exact .writeNonErased hp ho hi hb (by omega) hd hs he
                    · rw [memRead, if_neg hs] at h
                      cases h
              · next hb => cases h; exact .writeData hp ho hi fun h0 => absurd h0 hb
          | writeEnable => cases h; exact .opcodeOnlyClock hp (.inl ho)
          | chipErase => cases h; exact .opcodeOnlyClock hp (.inr ho)

/-! ## What each action answers, by phase and operation -/

theorem enable_deselected {s : State} (h : s.phase = .deselected) :
    act (.event .enableToggle) s = succeed (select s) := by
  simp only [act, actEvent, toggleChipEnable, h]

theorem enable_command {s : State} (h : s.phase = .command) :
    act (.event .enableToggle) s = raise .protocolViolation s := by
  simp only [act, actEvent, toggleChipEnable, h]

theorem enable_operation {s : State} (h : s.phase = .operation) :
    act (.event .enableToggle) s = endCommand s := by
  simp only [act, actEvent, toggleChipEnable, h]

theorem clock_deselected {s : State} (h : s.phase = .deselected) :
    act (.event .clockPulse) s = raise .protocolViolation s := by
  simp only [act, actEvent, toggleClock, h]

theorem clock_command {s : State} (h : s.phase = .command) :
    act (.event .clockPulse) s = logged .clockPulse (commandClock s) := by
  simp only [act, actEvent, toggleClock, h]

theorem clock_operation {s : State} (h : s.phase = .operation) :
    act (.event .clockPulse) s = logged .clockPulse (opOnClock s) := by
  simp only [act, actEvent, toggleClock, h]

/-- A chip-enable handler's success is kept and deselected. -/
theorem endCommand_ok {s t : State} (h : opOnChipEnable s = .done .ok t) :
    endCommand s = .done .ok (deselect t) := by
  simp only [endCommand, h, rollback]

/-- A chip-enable handler's failure is rolled back, and deselected all the same. -/
theorem endCommand_err {s t : State} {e : Error} (h : opOnChipEnable s = .done (.err e) t) :
    endCommand s = .done (.err e) (deselect s) := by
  simp only [endCommand, h, rollback, raise]

theorem opOnChipEnable_read {s : State} {r : ReadOp} (h : s.op = some (.read r)) :
    opOnChipEnable s =
      if r.acc.Incomplete s.cfg then addressIncompleteEnd s else readEnd s := by
  simp only [opOnChipEnable, h]

theorem opOnChipEnable_write {s : State} {w : WriteOp} (h : s.op = some (.write w)) :
    opOnChipEnable s =
      if w.acc.Incomplete s.cfg then addressIncompleteEnd s else writeEnd w s := by
  simp only [opOnChipEnable, h]

theorem opOnChipEnable_writeEnable {s : State} (h : s.op = some .writeEnable) :
    opOnChipEnable s = wrenEnd s := by
  simp only [opOnChipEnable, h]

theorem opOnChipEnable_chipErase {s : State} (h : s.op = some .chipErase) :
    opOnChipEnable s = eraseEnd s := by
  simp only [opOnChipEnable, h]

theorem opOnClock_read {s : State} {r : ReadOp} (h : s.op = some (.read r)) :
    opOnClock s = if r.acc.Incomplete s.cfg then readAddressClock r s else readClock r s := by
  simp only [opOnClock, h]

theorem opOnClock_write {s : State} {w : WriteOp} (h : s.op = some (.write w)) :
    opOnClock s = if w.acc.Incomplete s.cfg then writeAddressClock w s else writeClock w s := by
  simp only [opOnClock, h]

theorem opOnClock_opcodeOnly {s : State} (h : s.op = some .writeEnable ∨ s.op = some .chipErase) :
    opOnClock s = raise .protocolViolation s := by
  rcases h with h | h <;> simp only [opOnClock, h, wrenClock, eraseClock]

/-- A clock that completes no opcode shifts. -/
theorem commandClock_shift {s : State} (h : 1 < s.irCount) (h' : s.irCount ≤ 8) :
    commandClock s = succeed (shiftOpcode s) := by
  rw [commandClock, if_neg (by omega), if_neg (by omega)]

/-- The eighth clock dispatches, and rolls back where that fails. -/
theorem commandClock_last {s : State} (h : s.irCount = 1) :
    commandClock s = rollback s (dispatchOpcode (shiftOpcode s)) := by
  rw [commandClock, if_neg (by omega), if_pos h]

theorem dispatchOpcode_none {s : State} (h : lookupOpcode s.ir = none) :
    dispatchOpcode s = raise (.unknownOpcode s.ir) s := by
  simp only [dispatchOpcode, h]

theorem dispatchOpcode_some {s : State} {c : Command} (h : lookupOpcode s.ir = some c) :
    dispatchOpcode s =
      if latchAllows s c then
        succeed { s with op := some (newOperation s.cfg c), phase := .operation }
      else raise .notWriteEnabled s := by
  simp only [dispatchOpcode, h]

theorem commitFrom_past {addr : Nat} (vs : List Byte) :
    ∀ (k : Nat) (s : State), s.cfg.Legal → ¬HasDests s.cfg addr k vs.length →
      ∃ t, commitFrom addr k vs s = .done (.err .protocolViolation) t := by
  induction vs with
  | nil => intro k s _ hn; exact absurd (fun j hj => absurd hj (by simp)) hn
  | cons v vs ih =>
    intro k s hl hn
    rw [commitFrom]
    cases hd : dest s.cfg addr k with
    | error e => exact ⟨s, by rw [dest_error hd]; rfl⟩
    | ok i =>
      rw [List.length_cons, hasDests_cons hd] at hn
      simp only [memWrite_of_lt (dest_lt hl hd)]
      exact ih (k + 1) _ hl hn

theorem writeEnd_aborted {w : WriteOp} (h : w.aborted = true) (s : State) :
    writeEnd w s = .done .ok { s with wel := false } := by
  simp only [writeEnd, h]
  rfl

theorem writeEnd_commit {w : WriteOp} {s : State} (hc : s.cfg.Legal) (h : w.aborted = false)
    (hd : HasDests s.cfg w.acc.value 0 (filledBytes w).length) :
    writeEnd w s = .done .ok
      { s with
        store := programmed s.cfg w.acc.value 0 (filledBytes w) s.store, wel := false } := by
  simp only [writeEnd, h, Bool.false_eq_true, if_false, commitFrom_eq _ _ _ _ hc hd]
  rfl

/-- AND EVERY CASE IS WHAT THE ACTION ANSWERS, on an instance with a legal configuration. -/
theorem act_of_acts {a : HostAction} {s : State} {r : Result} {t : State} (hc : s.cfg.Legal)
    (h : Acts a s r t) : act a s = .done r t := by
  cases h with
  | getter p => rfl
  | wait => rfl
  | toggleDeselected h => simp only [act, actEvent, toggleSerialInput, if_pos h]; rfl
  | toggleTwice h hl => simp only [act, actEvent, toggleSerialInput, if_neg h, hl]; rfl
  | toggle h hl => simp only [act, actEvent, toggleSerialInput, if_neg h, hl]; rfl
  | select h => exact enable_deselected h
  | enableMidOpcode h => exact enable_command h
  | endReadEarly h ho hi =>
    rw [enable_operation h]
    exact endCommand_err ((opOnChipEnable_read ho).trans (if_pos hi))
  | endRead h ho hi =>
    rw [enable_operation h]
    exact endCommand_ok ((opOnChipEnable_read ho).trans (if_neg hi))
  | endWriteEarly h ho hi =>
    rw [enable_operation h]
    exact endCommand_err ((opOnChipEnable_write ho).trans (if_pos hi))
  | endWritePast h ho hi ha hd =>
    rw [enable_operation h]
    obtain ⟨t, ht⟩ := commitFrom_past _ _ _ hc hd
    refine endCommand_err (t := t) ((opOnChipEnable_write ho).trans ((if_neg hi).trans ?_))
    simp only [writeEnd, ha, Bool.false_eq_true, if_false, ht]
  | endWriteAborted h ho hi ha =>
    rw [enable_operation h]
    exact endCommand_ok
      ((opOnChipEnable_write ho).trans ((if_neg hi).trans (writeEnd_aborted ha s)))
  | endWrite h ho hi ha hd =>
    rw [enable_operation h]
    exact endCommand_ok
      ((opOnChipEnable_write ho).trans ((if_neg hi).trans (writeEnd_commit hc ha hd)))
  | endWriteEnable h ho hw =>
    rw [enable_operation h]
    refine endCommand_ok ((opOnChipEnable_writeEnable ho).trans ?_)
    simp only [wrenEnd, hw]
    rfl
  | endWriteEnableTwice h ho hw =>
    rw [enable_operation h]
    exact endCommand_err ((opOnChipEnable_writeEnable ho).trans (if_pos hw))
  | endChipErase h ho =>
    rw [enable_operation h]
    exact endCommand_ok (opOnChipEnable_chipErase ho)
  | clockDeselected h => exact clock_deselected h
  | opcodeBit h h1 h8 => rw [clock_command h, commandClock_shift h1 h8]; rfl
  | opcodeUnknown h h1 hl =>
    rw [clock_command h, commandClock_last h1, dispatchOpcode_none hl]; rfl
  | @opcodeNotEnabled _ c h h1 hl hw =>
    rw [clock_command h, commandClock_last h1, dispatchOpcode_some hl,
      show latchAllows (shiftOpcode s) c = false from hw]
    rfl
  | @opcode _ c h h1 hl hw =>
    rw [clock_command h, commandClock_last h1, dispatchOpcode_some hl,
      show latchAllows (shiftOpcode s) c = true from hw]
    rfl
  | readAddress h ho hi => rw [clock_operation h, opOnClock_read ho, if_pos hi]; rfl
  | writeAddress h ho hi => rw [clock_operation h, opOnClock_write ho, if_pos hi]; rfl
  | readPast h ho hi hd =>
    rw [clock_operation h, opOnClock_read ho, if_neg hi, readClock, hd, dest_error hd]; rfl
  | readData h ho hi hd hs =>
    rw [clock_operation h, opOnClock_read ho, if_neg hi, readClock, hd]
    simp only [memRead_of_lt hs]
    rfl
  | writeFull h ho hi hb hf =>
    rw [clock_operation h, opOnClock_write ho, if_neg hi, writeClock, if_pos hb, if_pos hf]; rfl
  | writePast h ho hi hb hf hd =>
    rw [clock_operation h, opOnClock_write ho, if_neg hi, writeClock, if_pos hb,
      if_neg (Nat.not_le.mpr hf), hd, dest_error hd]
    rfl
  | writeNonErased h ho hi hb hf hd hs he =>
    rw [clock_operation h, opOnClock_write ho, if_neg hi, writeClock, if_pos hb,
      if_neg (Nat.not_le.mpr hf), hd]
    simp only [memRead_of_lt hs, isErased, decide_eq_false he]
    rfl
  | @writeData _ w h ho hi hb =>
    rw [clock_operation h, opOnClock_write ho, if_neg hi, writeClock]
    by_cases h0 : w.nin % 8 = 0
    · obtain ⟨hf, i, hd, hs, he⟩ := hb h0
      rw [if_pos h0, if_neg (Nat.not_le.mpr hf), hd]
      simp only [memRead_of_lt hs, isErased, he, decide_true]
      rfl
    · rw [if_neg h0]
      rfl
  | opcodeOnlyClock h ho => rw [clock_operation h, opOnClock_opcodeOnly ho]; rfl

/-! ## Sequences of actions -/

/-- One action conducted as a step. -/
theorem conduct_single {a : HostAction} {s t : State} {r : Result} (hc : s.cfg.Legal)
    (h : act a s = .done r t) : conduct [a] s = .next { t with returned := [r] } := by
  simp only [conduct, if_pos hc, perform, h]

/-- Actions that perform are conducted to the state they perform to. -/
theorem conduct_of_perform {as : List HostAction} {s t : State} {rs : List Result}
    (hc : s.cfg.Legal) (h : perform as s = .ok (rs, t)) :
    conduct as s = .next { t with returned := rs } := by
  simp only [conduct, if_pos hc, h]

/-- And a step that conducts them answers nothing else. -/
theorem perform_of_conduct {as : List HostAction} {s t : State} (h : conduct as s = .next t) :
    s.cfg.Legal ∧ ∃ u, perform as s = .ok (t.returned, u) ∧ t = { u with returned := t.returned } := by
  unfold conduct at h
  split at h
  · next hc =>
    refine ⟨hc, ?_⟩
    split at h
    · next rs u hp => cases h; exact ⟨u, hp, rfl⟩
    · cases h
  · cases h

theorem perform_cons {a : HostAction} {s t : State} {r : Result} (as : List HostAction)
    (h : act a s = .done r t) :
    perform (a :: as) s = (perform as t).map (fun x => (r :: x.1, x.2)) := by
  rw [perform, h]
  simp only
  cases perform as t <;> rfl

/-- An action performed before others: what it answers, then they. -/
theorem perform_cons_ok {a : HostAction} {as : List HostAction} {s u : State} {rs : List Result} :
    perform (a :: as) s = .ok (rs, u) ↔
      ∃ r t rs', act a s = .done r t ∧ perform as t = .ok (rs', u) ∧ rs = r :: rs' := by
  rw [perform]
  constructor
  · intro h
    split at h
    · cases h
    · next r t ha =>
      split at h
      · cases h
      · next rs' u' hp => cases h; exact ⟨r, t, rs', ha, hp, rfl⟩
  · rintro ⟨r, t, rs', ha, hp, rfl⟩
    rw [ha]
    simp only [hp]

/-- Every result of a sequence is what one of its actions returned. -/
theorem result_of_perform {as : List HostAction} {s t : State} {rs : List Result} {r : Result}
    (h : perform as s = .ok (rs, t)) (hr : r ∈ rs) : ∃ a ∈ as, ∃ u v, act a u = .done r v := by
  induction as generalizing s rs with
  | nil => cases h; cases hr
  | cons a as ih =>
    obtain ⟨r', u, rs', ha, hp, rfl⟩ := perform_cons_ok.mp h
    rcases List.mem_cons.mp hr with rfl | hr
    · exact ⟨a, .head _, s, u, ha⟩
    · obtain ⟨b, hb, hx⟩ := ih hp hr
      exact ⟨b, .tail _ hb, hx⟩

/-- Actions performed one part after the other. -/
theorem perform_append {as bs : List HostAction} {s t u : State} {rs rs' : List Result}
    (h : perform as s = .ok (rs, t)) (h' : perform bs t = .ok (rs', u)) :
    perform (as ++ bs) s = .ok (rs ++ rs', u) := by
  induction as generalizing s rs with
  | nil => cases h; exact h'
  | cons a as ih =>
    obtain ⟨r, v, rs1, ha, hp, rfl⟩ := perform_cons_ok.mp h
    exact perform_cons_ok.mpr ⟨r, v, rs1 ++ rs', ha, ih hp, rfl⟩

theorem perform_append_ok {as bs : List HostAction} {s u : State} {rs : List Result} :
    perform (as ++ bs) s = .ok (rs, u) ↔
      ∃ rs1 rs2 t, perform as s = .ok (rs1, t) ∧ perform bs t = .ok (rs2, u) ∧ rs = rs1 ++ rs2 := by
  constructor
  · induction as generalizing s rs with
    | nil => intro h; exact ⟨[], rs, s, rfl, h, rfl⟩
    | cons a as ih =>
      intro h
      obtain ⟨r, v, rs', ha, hp, rfl⟩ := perform_cons_ok.mp h
      obtain ⟨rs1, rs2, t, h1, h2, rfl⟩ := ih hp
      exact ⟨r :: rs1, rs2, t, perform_cons_ok.mpr ⟨r, v, rs1, ha, h1, rfl⟩, h2, rfl⟩
  · rintro ⟨rs1, rs2, t, h1, h2, rfl⟩
    exact perform_append h1 h2

/-- What every action that answers keeps is kept by every sequence of them. -/
theorem perform_induction {P : State → Prop} {as : List HostAction}
    (step : ∀ a ∈ as, ∀ s r t, P s → act a s = .done r t → P t) {s t : State} {rs : List Result}
    (h : perform as s = .ok (rs, t)) (hs : P s) : P t := by
  induction as generalizing s rs with
  | nil => cases h; exact hs
  | cons a as ih =>
    obtain ⟨r, u, rs', ha, hp, rfl⟩ := perform_cons_ok.mp h
    exact ih (fun b hb => step b (List.mem_cons_of_mem _ hb)) hp
      (step a List.mem_cons_self _ _ _ hs ha)

/-! ## The host's side of the state -/

/-- The state with another queue and other results. -/
def State.withHost (s : State) (input : List Request) (returned : List Result) : State :=
  { s with input := input, returned := returned }

/-- An answer with another queue and other results. -/
def Reply.withHost (input : List Request) (returned : List Result) : Reply → Reply
  | .done r t => .done r (t.withHost input returned)
  | .stuck f => .stuck f

theorem commitFrom_withHost (addr : Nat) (vs : List Byte) (inp : List Request) (ret : List Result) :
    ∀ (k : Nat) (s : State),
      commitFrom addr k vs (s.withHost inp ret) = (commitFrom addr k vs s).withHost inp ret := by
  induction vs with
  | nil => intros; rfl
  | cons v vs ih =>
    intro k s
    rw [commitFrom, commitFrom]
    have hcfg : (s.withHost inp ret).cfg = s.cfg := rfl
    rw [hcfg]
    cases dest s.cfg addr k with
    | error e => rfl
    | ok i =>
      simp only [memWrite, hcfg]
      by_cases hlt : i < s.cfg.capacity
      · simp only [if_pos hlt]
        exact ih (k + 1) { s with store := s.store.write i v }
      · simp only [if_neg hlt]
        rfl

/-- No action reads the host's side of the state or writes it. -/
theorem act_withHost (a : HostAction) (s : State) (inp : List Request) (ret : List Result) :
    act a (s.withHost inp ret) = (act a s).withHost inp ret := by
  cases a with
  | getter p => cases p <;> rfl
  | event e =>
    cases e with
    | waitForWrite => rfl
    | inputToggle =>
      have hp : (s.withHost inp ret).phase = s.phase := rfl
      have hl : lastWasInput (s.withHost inp ret) = lastWasInput s := rfl
      simp only [act, actEvent, toggleSerialInput, hp, hl]
      split
      · rfl
      · split <;> rfl
    | enableToggle =>
      have hp : (s.withHost inp ret).phase = s.phase := rfl
      have hcfg : (s.withHost inp ret).cfg = s.cfg := rfl
      have ho : (s.withHost inp ret).op = s.op := rfl
      simp only [act, actEvent, toggleChipEnable, hp]
      cases s.phase with
      | deselected => rfl
      | command => rfl
      | operation =>
        simp only [endCommand, opOnChipEnable, ho, hcfg]
        cases s.op with
        | none => rfl
        | some o =>
          cases o with
          | read r => by_cases hi : r.acc.Incomplete s.cfg <;> simp only [hi] <;> rfl
          | write w =>
            by_cases hi : w.acc.Incomplete s.cfg
            · simp only [if_pos hi]; rfl
            · simp only [if_neg hi, writeEnd, commitFrom_withHost]
              cases commitFrom w.acc.value 0 (if w.aborted = true then [] else filledBytes w) s with
              | stuck f => rfl
              | done r t => cases r <;> rfl
          | writeEnable =>
            have hw : (s.withHost inp ret).wel = s.wel := rfl
            simp only [wrenEnd, hw]
            cases s.wel <;> rfl
          | chipErase => rfl
    | clockPulse =>
      have hp : (s.withHost inp ret).phase = s.phase := rfl
      have hcfg : (s.withHost inp ret).cfg = s.cfg := rfl
      have ho : (s.withHost inp ret).op = s.op := rfl
      have hst : (s.withHost inp ret).store = s.store := rfl
      simp only [act, actEvent, toggleClock, hp]
      cases s.phase with
      | deselected => rfl
      | command =>
        have hc : (s.withHost inp ret).irCount = s.irCount := rfl
        have hir : (shiftOpcode (s.withHost inp ret)).ir = (shiftOpcode s).ir := rfl
        simp only [commandClock, hc]
        split
        · rfl
        · split
          · simp only [dispatchOpcode, hir]
            cases lookupOpcode (shiftOpcode s).ir with
            | none => rfl
            | some c =>
              have hla : latchAllows (shiftOpcode (s.withHost inp ret)) c =
                latchAllows (shiftOpcode s) c := rfl
              simp only [hla]
              split <;> rfl
          · rfl
      | operation =>
        simp only [opOnClock, ho, hcfg]
        cases s.op with
        | none => rfl
        | some o =>
          cases o with
          | read r =>
            simp only
            split
            · rfl
            · simp only [readClock, hcfg]
              cases dest s.cfg r.acc.value (byteIndex r.nout) with
              | error e => rfl
              | ok i => simp only [memRead, hcfg, hst]; split <;> rfl
          | write w =>
            simp only
            split
            · rfl
            · simp only [writeClock, hcfg]
              split
              · split
                · rfl
                · cases dest s.cfg w.acc.value (byteIndex w.nin) with
                  | error e => rfl
                  | ok i =>
                    simp only [memRead, hcfg, hst]
                    by_cases hlt : i < s.cfg.capacity
                    · simp only [if_pos hlt]; split <;> rfl
                    · simp only [if_neg hlt]; rfl
              · rfl
          | writeEnable => rfl
          | chipErase => rfl

/-- No sequence of actions reads the host's side of the state or writes it. -/
theorem perform_withHost (as : List HostAction) (inp : List Request) (ret : List Result) :
    ∀ s : State, perform as (s.withHost inp ret) =
      (perform as s).map (fun x => (x.1, x.2.withHost inp ret)) := by
  induction as with
  | nil => intro s; rfl
  | cons a as ih =>
    intro s
    rw [perform, perform, act_withHost]
    cases act a s with
    | stuck f => rfl
    | done r t =>
      simp only [Reply.withHost, ih t]
      cases perform as t <;> rfl

end Sys2Proof.Machine
end

