-- ==== Sys2Proof/Laws/Commands.lean ====
section
/-! SUPPORT. What clocking bits in does: `perform_send_cons` says it of one bit in any state, and
then, phase by phase, of a sequence of bits. `State.sent` is what every accepted bit does to the pins
and the log. -/

namespace Sys2Proof.Machine

/-! ## The actions of a send -/

theorem levelAfter_append (p : Pin) (as bs : List Bool) :
    levelAfter p (as ++ bs) = levelAfter (levelAfter p as) bs := by
  induction as generalizing p with
  | nil => rfl
  | cons a as ih => exact ih _

@[simp] theorem levelAfter_singleton (p : Pin) (b : Bool) : levelAfter p [b] = pinOf b := rfl

theorem levelAfter_concat (p : Pin) (bs : List Bool) (b : Bool) :
    levelAfter p (bs ++ [b]) = pinOf b := by rw [levelAfter_append]; rfl

/-- The actions before the clock of a bit: a toggle where the level is the other one. -/
def toggles (level : Pin) (b : Bool) : List HostAction :=
  if bitOf level = b then [] else [.event .inputToggle]

theorem send_cons (level : Pin) (b : Bool) (bs : List Bool) :
    send level (b :: bs) = toggles level b ++ .event .clockPulse :: send (pinOf b) bs := by
  rw [send, toggles]
  split
  · next h => rw [eq_pinOf h]; rfl
  · next h => rw [toggled_eq_pinOf h]; rfl

theorem send_append (level : Pin) (as bs : List Bool) :
    send level (as ++ bs) = send level as ++ send (levelAfter level as) bs := by
  induction as generalizing level with
  | nil => rfl
  | cons a as ih => rw [List.cons_append, send_cons, send_cons, ih]; simp [levelAfter]

theorem eventsOf_append (as bs : List HostAction) :
    eventsOf (as ++ bs) = eventsOf as ++ eventsOf bs := by
  induction as with
  | nil => rfl
  | cons a as ih => cases a <;> simp [eventsOf, ih]

theorem frameActions_length (level : Pin) (bits : List Bool) :
    (frameActions level bits).length = (send level bits).length + 2 := by
  simp [frameActions]

theorem eventsOf_frameActions (level : Pin) (bits : List Bool) :
    eventsOf (frameActions level bits) =
      .enableToggle :: (eventsOf (send level bits) ++ [.enableToggle]) := by
  simp [frameActions, eventsOf, eventsOf_append]

/-! ## One bit -/

/-- The state in which a bit is clocked: `si` at its level, the toggle logged if one was needed. -/
def State.sampled (s : State) (b : Bool) : State :=
  { s with si := pinOf b, log := s.log ++ eventsOf (toggles s.si b) }

/-- `si` and the log after bits were sent and each logged. -/
def State.sent (s : State) (bits : List Bool) : State :=
  { s with si := levelAfter s.si bits, log := s.log ++ eventsOf (send s.si bits) }

@[simp] theorem sent_nil (s : State) : s.sent [] = s := by
  simp [State.sent, levelAfter, send, eventsOf]

theorem sampled_append (s : State) (b : Bool) : (s.sampled b).append .clockPulse = s.sent [b] := by
  rw [State.sampled, State.sent, State.append, send_cons]
  simp [eventsOf_append, eventsOf, send, levelAfter]

theorem sent_sent (s : State) (as bs : List Bool) : (s.sent as).sent bs = s.sent (as ++ bs) := by
  simp [State.sent, levelAfter_append, send_append, eventsOf_append]

theorem sent_cons (s : State) (b : Bool) (bs : List Bool) :
    s.sent (b :: bs) = (s.sent [b]).sent bs := by rw [sent_sent]; rfl

@[simp] theorem sent_cfg (s : State) (bits : List Bool) : (s.sent bits).cfg = s.cfg := rfl
@[simp] theorem sent_ce (s : State) (bits : List Bool) : (s.sent bits).ce = s.ce := rfl
@[simp] theorem sent_so (s : State) (bits : List Bool) : (s.sent bits).so = s.so := rfl
@[simp] theorem sent_phase (s : State) (bits : List Bool) : (s.sent bits).phase = s.phase := rfl
@[simp] theorem sent_ir (s : State) (bits : List Bool) : (s.sent bits).ir = s.ir := rfl
@[simp] theorem sent_irCount (s : State) (bits : List Bool) :
    (s.sent bits).irCount = s.irCount := rfl
@[simp] theorem sent_wel (s : State) (bits : List Bool) : (s.sent bits).wel = s.wel := rfl
@[simp] theorem sent_op (s : State) (bits : List Bool) : (s.sent bits).op = s.op := rfl
@[simp] theorem sent_store (s : State) (bits : List Bool) : (s.sent bits).store = s.store := rfl
@[simp] theorem sent_si (s : State) (bits : List Bool) :
    (s.sent bits).si = levelAfter s.si bits := rfl
@[simp] theorem sent_log (s : State) (bits : List Bool) :
    (s.sent bits).log = s.log ++ eventsOf (send s.si bits) := rfl
@[simp] theorem sent_input (s : State) (bits : List Bool) : (s.sent bits).input = s.input := rfl
@[simp] theorem sent_returned (s : State) (bits : List Bool) :
    (s.sent bits).returned = s.returned := rfl

@[simp] theorem sampled_cfg (s : State) (b : Bool) : (s.sampled b).cfg = s.cfg := rfl
@[simp] theorem sampled_phase (s : State) (b : Bool) : (s.sampled b).phase = s.phase := rfl
@[simp] theorem sampled_ir (s : State) (b : Bool) : (s.sampled b).ir = s.ir := rfl
@[simp] theorem sampled_irCount (s : State) (b : Bool) : (s.sampled b).irCount = s.irCount := rfl
@[simp] theorem sampled_wel (s : State) (b : Bool) : (s.sampled b).wel = s.wel := rfl
@[simp] theorem sampled_op (s : State) (b : Bool) : (s.sampled b).op = s.op := rfl
@[simp] theorem sampled_store (s : State) (b : Bool) : (s.sampled b).store = s.store := rfl
@[simp] theorem sampled_si (s : State) (b : Bool) : (s.sampled b).si = pinOf b := rfl

/-- What lets a host clock bits in at once: the chip is selected and `si` was not just toggled
(40_pin_interface.md R108). -/
abbrev State.Ready (s : State) : Prop := s.phase ≠ .deselected ∧ lastWasInput s = false

theorem ready_select (s : State) : (select s).Ready := by
  refine ⟨by simp, ?_⟩
  rw [select, lastWasInput_append]
  rfl

theorem ready_sent {s : State} (h : s.Ready) (bits : List Bool) : (s.sent bits).Ready := by
  induction bits generalizing s with
  | nil => simpa using h
  | cons b bs ih =>
    rw [sent_cons]
    refine ih ⟨h.1, ?_⟩
    rw [← sampled_append, lastWasInput_append]
    rfl

/-- The actions of one bit come to its clock in the sampled state. -/
theorem perform_toggles {s : State} (h : s.Ready) (b : Bool) :
    perform (toggles s.si b) s = .ok (List.replicate (toggles s.si b).length .ok, s.sampled b) := by
  unfold toggles
  split
  · next hb =>
    have : s.sampled b = s := by simp [State.sampled, toggles, hb, eventsOf, ← eq_pinOf hb]
    rw [this]
    rfl
  · next hb =>
    have ha : act (.event .inputToggle) s = .done .ok (s.sampled b) := by
      simp only [act, actEvent, toggleSerialInput, if_neg h.1, h.2, Bool.false_eq_true, if_false]
      simp [succeed, State.append, State.sampled, toggles, hb, eventsOf, toggled_eq_pinOf hb]
    rw [perform, ha]
    rfl

/-- ONE BIT CLOCKED IN: its toggle succeeds, and its clock answers what it answers in the sampled
state. -/
theorem perform_send_one {s t : State} {b : Bool} {r : Result} (h : s.Ready)
    (hc : act (.event .clockPulse) (s.sampled b) = .done r t) :
    perform (send s.si [b]) s = .ok (List.replicate (toggles s.si b).length .ok ++ [r], t) := by
  rw [send_cons]
  refine perform_append (perform_toggles h b) ?_
  simp only [send, perform, hc]

theorem send_one_length (p : Pin) (b : Bool) : (send p [b]).length = (toggles p b).length + 1 := by
  rw [send_cons]
  simp [send]

/-- One bit clocked in and accepted. -/
theorem perform_send_one_ok {s t : State} {b : Bool} (h : s.Ready)
    (hc : act (.event .clockPulse) (s.sampled b) = .done .ok t) :
    perform (send s.si [b]) s = .ok (List.replicate (send s.si [b]).length .ok, t) := by
  rw [perform_send_one h hc, send_one_length, List.replicate_succ']

/-- Bits clocked in after an accepted one. -/
theorem perform_send_cons {s t u : State} {b : Bool} {bs : List Bool} (h : s.Ready)
    (hc : act (.event .clockPulse) (s.sampled b) = .done .ok t)
    (hsi : t.si = pinOf b)
    (hr : perform (send t.si bs) t = .ok (List.replicate (send t.si bs).length .ok, u)) :
    perform (send s.si (b :: bs)) s =
      .ok (List.replicate (send s.si (b :: bs)).length .ok, u) := by
  have := perform_append (perform_send_one_ok h hc) hr
  rw [hsi] at this
  rw [show b :: bs = [b] ++ bs from rfl, send_append, levelAfter_singleton, this,
    List.length_append, List.replicate_append_replicate]

/-- Bits clocked in one sequence after the other. -/
theorem perform_send_append {s t : State} {as bs : List Bool} {rs rs' : List Result} {u : State}
    (h : perform (send s.si as) s = .ok (rs, t)) (hsi : t.si = levelAfter s.si as)
    (h' : perform (send t.si bs) t = .ok (rs', u)) :
    perform (send s.si (as ++ bs)) s = .ok (rs ++ rs', u) := by
  rw [send_append, ← hsi]
  exact perform_append h h'

/-- A WHOLE FRAME: selected, clocked in, and the closing chip-enable toggle. -/
theorem perform_frame {s t u : State} {bits : List Bool} {rs : List Result} {r : Result}
    (hp : s.phase = .deselected) (h : perform (send (select s).si bits) (select s) = .ok (rs, t))
    (he : act (.event .enableToggle) t = .done r u) :
    perform (frameActions s.si bits) s = .ok (.ok :: (rs ++ [r]), u) := by
  rw [frameActions, perform_cons_ok]
  refine ⟨.ok, select s, rs ++ [r], enable_deselected hp, ?_, rfl⟩
  refine perform_append h ?_
  simp only [perform, he]

/-! ## Opcode bits (41_command_decode.md R130) -/

/-- The instruction register after bits were shifted in with `n` still to come. -/
def shiftIn : BitVec 8 → Nat → List Bool → BitVec 8
  | v, _, [] => v
  | v, n, b :: bs => shiftIn (setBit v (n - 1) b) (n - 1) bs

theorem shiftIn_append (as bs : List Bool) : ∀ (v : BitVec 8) (n : Nat),
    shiftIn v n (as ++ bs) = shiftIn (shiftIn v n as) (n - as.length) bs := by
  induction as with
  | nil => intros; rfl
  | cons a as ih =>
    intro v n
    rw [List.cons_append, shiftIn, shiftIn, ih, List.length_cons, Nat.sub_sub, Nat.add_comm]

/-- The eight bits of a byte shifted in are that byte, whatever was in the register. -/
theorem shiftIn_byteBits (v op : BitVec 8) : shiftIn v 8 (byteBits op) = op := by
  simp only [byteBits, natBits, shiftIn]
  refine byte_ext fun j hj => ?_
  simp only [Nat.reduceSub]
  repeat rw [setBit_getLsbD _ (by decide)]
  have : j = 0 ∨ j = 1 ∨ j = 2 ∨ j = 3 ∨ j = 4 ∨ j = 5 ∨ j = 6 ∨ j = 7 := by omega
  rcases this with rfl | rfl | rfl | rfl | rfl | rfl | rfl | rfl <;> rfl

/-- The first seven bits of a byte, and its last one. -/
theorem byteBits_eq (op : BitVec 8) :
    byteBits op = (byteBits op).dropLast ++ [op.getLsbD 0] := by
  simp only [byteBits, natBits]
  rfl

/-- The register after seven bits of a byte holds them. -/
theorem setBit_shiftIn_dropLast (v op : BitVec 8) (b : Bool) :
    setBit (shiftIn v 8 (byteBits op).dropLast) 0 b = setBit op 0 b := by
  simp only [byteBits, natBits, shiftIn, List.dropLast]
  refine byte_ext fun j hj => ?_
  simp only [Nat.reduceSub]
  repeat rw [setBit_getLsbD _ (by decide)]
  have : j = 0 ∨ j = 1 ∨ j = 2 ∨ j = 3 ∨ j = 4 ∨ j = 5 ∨ j = 6 ∨ j = 7 := by omega
  rcases this with rfl | rfl | rfl | rfl | rfl | rfl | rfl | rfl <;> rfl

/-- From a clear register the bit still to come is clear. -/
theorem shiftIn_dropLast (op : BitVec 8) :
    shiftIn 0#8 8 (byteBits op).dropLast = setBit op 0 false := by
  simp only [byteBits, natBits, shiftIn, List.dropLast]
  refine byte_ext fun j hj => ?_
  simp only [Nat.reduceSub]
  repeat rw [setBit_getLsbD _ (by decide)]
  have : j = 0 ∨ j = 1 ∨ j = 2 ∨ j = 3 ∨ j = 4 ∨ j = 5 ∨ j = 6 ∨ j = 7 := by omega
  rcases this with rfl | rfl | rfl | rfl | rfl | rfl | rfl | rfl <;> rfl

/-- The whole byte is its first seven bits with the last one. -/
theorem setBit_getLsbD_zero (op : BitVec 8) : setBit op 0 (op.getLsbD 0) = op := by
  refine byte_ext fun j _ => ?_
  rw [setBit_getLsbD _ (by decide)]
  split
  · next h => rw [h]
  · rfl

/-- OPCODE BITS, fewer than are still to come: each is shifted in and logged. -/
theorem perform_send_opcode (bits : List Bool) : ∀ s : State, s.Ready → s.phase = .command →
    bits.length < s.irCount → s.irCount ≤ 8 →
    perform (send s.si bits) s =
      .ok (List.replicate (send s.si bits).length .ok,
        State.sent
          { s with ir := shiftIn s.ir s.irCount bits, irCount := s.irCount - bits.length }
          bits) := by
  induction bits with
  | nil => intro s _ _ _ _; simp [send, perform, shiftIn]
  | cons b bs ih =>
    intro s h hp hl h8
    simp only [List.length_cons] at hl
    let t : State :=
      State.sent { s with ir := setBit s.ir (s.irCount - 1) b, irCount := s.irCount - 1 } [b]
    have hc : act (.event .clockPulse) (s.sampled b) = .done .ok t := by
      rw [clock_command (by simpa using hp), commandClock_shift (by simp; omega) (by simpa using h8),
        succeed, logged, succeed]
      congr 1
      simp only [t]
      rw [← sampled_append]
      simp [shiftOpcode, State.sampled, State.append]
    refine perform_send_cons h hc rfl ?_
    have htr : t.Ready := ready_sent (s := { s with
      ir := setBit s.ir (s.irCount - 1) b, irCount := s.irCount - 1 }) h [b]
    have hlt : bs.length < t.irCount := by show bs.length < s.irCount - 1; omega
    have hle : t.irCount ≤ 8 := by show s.irCount - 1 ≤ 8; omega
    have hcn : t.irCount - bs.length = s.irCount - (bs.length + 1) := by
      show s.irCount - 1 - bs.length = _; omega
    rw [ih t htr hp hlt hle]
    rw [List.length_cons, shiftIn, hcn, sent_cons]
    rfl

/-- The clock of an opcode's last bit, from the state in which the others are in. -/
theorem clock_last {s : State} {b : Bool} (hp : s.phase = .command) (h1 : s.irCount = 1) :
    act (.event .clockPulse) (s.sampled b) =
      match lookupOpcode (setBit s.ir 0 b) with
      | none => .done (.err (.unknownOpcode (setBit s.ir 0 b))) (s.sampled b)
      | some c =>
          if latchAllows s c then
            .done .ok (State.sent
              { s with
                ir := setBit s.ir 0 b, irCount := 0, phase := .operation
                op := some (newOperation s.cfg c) } [b])
          else .done (.err .notWriteEnabled) (s.sampled b) := by
  have hir : (shiftOpcode (s.sampled b)).ir = setBit s.ir 0 b := by simp [h1]
  rw [clock_command (by simpa using hp), commandClock_last (by simpa using h1)]
  cases hl : lookupOpcode (setBit s.ir 0 b) with
  | none =>
    rw [dispatchOpcode_none (by rw [hir, hl]), hir]
    rfl
  | some c =>
    rw [dispatchOpcode_some (by rw [hir, hl])]
    have hla : latchAllows (shiftOpcode (s.sampled b)) c = latchAllows s c := rfl
    rw [hla]
    dsimp only
    cases latchAllows s c with
    | false => rfl
    | true =>
      simp only [if_true, succeed, rollback, logged]
      congr 1
      rw [← sampled_append]
      simp [shiftOpcode, State.sampled, State.append, h1]

/-- Seven opcode bits after the chip was selected. -/
theorem perform_send_seven (s : State) (op : BitVec 8) :
    perform (send (select s).si (byteBits op).dropLast) (select s) =
      .ok (List.replicate (send s.si (byteBits op).dropLast).length .ok,
        State.sent { select s with ir := setBit op 0 false, irCount := 1 }
          (byteBits op).dropLast) := by
  have := perform_send_opcode (byteBits op).dropLast (select s) (ready_select s) rfl
    (by simp) (by simp)
  rw [this]
  simp only [select_ir, select_irCount, select_si]
  have hl : 8 - (byteBits op).dropLast.length = 1 := by simp
  rw [hl]
  have : (0x00#8 : BitVec 8) = 0#8 := rfl
  rw [this, shiftIn_dropLast]

/-- Setting a bit twice is setting it once. -/
theorem setBit_setBit_zero (v : BitVec 8) (a b : Bool) :
    setBit (setBit v 0 a) 0 b = setBit v 0 b := by
  refine byte_ext fun j _ => ?_
  rw [setBit_getLsbD _ (by decide), setBit_getLsbD _ (by decide), setBit_getLsbD _ (by decide)]
  split <;> rfl

/-- A COMMAND'S OPCODE, accepted: the operation is created. -/
theorem perform_send_command {s : State} (c : Command) (hw : latchAllows s c = true) :
    perform (send (select s).si (byteBits c.opcode)) (select s) =
      .ok (List.replicate (send s.si (byteBits c.opcode)).length .ok,
        State.sent
          { select s with
            ir := c.opcode, irCount := 0, phase := .operation
            op := some (newOperation s.cfg c) }
          (byteBits c.opcode)) := by
  have h7 := perform_send_seven s c.opcode
  generalize hu : State.sent { select s with ir := setBit c.opcode 0 false, irCount := 1 }
    (byteBits c.opcode).dropLast = u at h7
  have hur : u.Ready := by
    rw [← hu]
    exact ready_sent (s := { select s with ir := setBit c.opcode 0 false, irCount := 1 })
      (ready_select s) _
  have husi : u.si = levelAfter s.si (byteBits c.opcode).dropLast := by rw [← hu]; rfl
  have hlast : act (.event .clockPulse) (u.sampled (c.opcode.getLsbD 0)) =
      .done .ok (State.sent
        { u with
          ir := c.opcode, irCount := 0, phase := .operation
          op := some (newOperation s.cfg c) } [c.opcode.getLsbD 0]) := by
    rw [clock_last (by rw [← hu]; rfl) (by rw [← hu]; rfl)]
    have hir : setBit u.ir 0 (c.opcode.getLsbD 0) = c.opcode := by
      rw [← hu]
      show setBit (setBit c.opcode 0 false) 0 _ = _
      rw [setBit_setBit_zero, setBit_getLsbD_zero]
    have hla : latchAllows u c = true := by rw [← hu]; exact hw
    have hcfg : u.cfg = s.cfg := by rw [← hu]; rfl
    rw [hir, lookupOpcode_opcode]
    simp only [hla, if_true, hcfg]
  have := perform_send_append (s := select s) (bs := [c.opcode.getLsbD 0]) h7
    husi (perform_send_one_ok hur hlast)
  rw [← byteBits_eq] at this
  rw [this]
  congr 2
  · rw [List.replicate_append_replicate, husi, ← List.length_append, ← send_append, ← byteBits_eq]
  · rw [← hu]
    conv => rhs; rw [byteBits_eq, ← sent_sent]
    rfl

/-! ## Address bits (42_address_phase.md R151) -/

/-- The accumulator after bits were clocked in. -/
def accumulated (c : Config) (a : Addr) (bits : List Bool) : Addr := bits.foldl (accumulate c) a

theorem accumulated_count (c : Config) (bits : List Bool) :
    ∀ a : Addr, (accumulated c a bits).count = a.count + bits.length := by
  induction bits with
  | nil => intro a; rfl
  | cons b bs ih =>
    intro a
    rw [accumulated, List.foldl_cons]
    have := ih (accumulate c a b)
    rw [accumulated] at this
    rw [this]
    simp [accumulate]
    omega

theorem accumulated_value (c : Config) (bits : List Bool) : ∀ a : Addr, a.value < 2 ^ c.addrBits →
    (accumulated c a bits).value = (a.value * 2 ^ bits.length + bitsNat bits) % 2 ^ c.addrBits := by
  induction bits with
  | nil => intro a h; simp [accumulated, Nat.mod_eq_of_lt h]
  | cons b bs ih =>
    intro a h
    rw [accumulated, List.foldl_cons]
    have := ih (accumulate c a b) (by simp only [accumulate]; exact Nat.mod_lt _ (Nat.two_pow_pos _))
    rw [accumulated] at this
    rw [this, bitsNat_cons]
    simp only [accumulate, List.length_cons, pow_succ]
    rw [Nat.add_mod, Nat.mod_mul_mod, ← Nat.add_mod]
    congr 1
    ring

/-- The bits of an address clocked into an empty accumulator are that address. -/
theorem accumulated_natBits {c : Config} {addr : Nat} (h : addr < 2 ^ c.addrBits) :
    accumulated c emptyAddr (natBits c.addrBits addr) =
      { value := addr, count := c.addrBits } := by
  have hv := accumulated_value c (natBits c.addrBits addr) emptyAddr (Nat.two_pow_pos _)
  have hc := accumulated_count c (natBits c.addrBits addr) emptyAddr
  rw [bitsNat_natBits] at hv
  simp only [show emptyAddr.value = 0 from rfl, show emptyAddr.count = 0 from rfl, Nat.zero_mul,
    Nat.zero_add, Nat.mod_eq_of_lt h, natBits_length] at hv hc
  generalize accumulated c emptyAddr (natBits c.addrBits addr) = x at *
  cases x
  simp_all

/-- ADDRESS BITS OF A READ. -/
theorem perform_send_read_address (bits : List Bool) : ∀ (s : State) (r : ReadOp), s.Ready →
    s.phase = .operation → s.op = some (.read r) → r.acc.count + bits.length ≤ s.cfg.addrBits →
    perform (send s.si bits) s =
      .ok (List.replicate (send s.si bits).length .ok,
        State.sent { s with op := some (.read { r with acc := accumulated s.cfg r.acc bits }) }
          bits) := by
  induction bits with
  | nil =>
    intro s r _ _ ho _
    have : ({ s with op := some (.read { r with acc := accumulated s.cfg r.acc [] }) } : State) = s := by
      cases s; simp_all [accumulated]
    rw [this]; simp [send, perform]
  | cons b bs ih =>
    intro s r h hp ho hl
    simp only [List.length_cons] at hl
    have hi : r.acc.Incomplete s.cfg := by show r.acc.count < s.cfg.addrBits; omega
    let t : State :=
      State.sent { s with op := some (.read { r with acc := accumulate s.cfg r.acc b }) } [b]
    have hc : act (.event .clockPulse) (s.sampled b) = .done .ok t := by
      rw [clock_operation (by simpa using hp), opOnClock_read (r := r) (by simpa using ho),
        if_pos (by simpa using hi), readAddressClock, succeed, logged, succeed]
      congr 1
      simp only [clockedAddr, sampled_cfg, sampled_si, bitOf_pinOf, t]
      rw [← sampled_append]
      rfl
    refine perform_send_cons h hc rfl ?_
    have htr : t.Ready := ready_sent (s := { s with
      op := some (.read { r with acc := accumulate s.cfg r.acc b }) }) h [b]
    rw [ih t { r with acc := accumulate s.cfg r.acc b } htr hp rfl
      (by simp only [accumulate, t, sent_cfg]; omega)]
    rw [sent_cons]
    rfl

/-- ADDRESS BITS OF A WRITE. -/
theorem perform_send_write_address (bits : List Bool) : ∀ (s : State) (w : WriteOp), s.Ready →
    s.phase = .operation → s.op = some (.write w) → w.acc.count + bits.length ≤ s.cfg.addrBits →
    perform (send s.si bits) s =
      .ok (List.replicate (send s.si bits).length .ok,
        State.sent { s with op := some (.write { w with acc := accumulated s.cfg w.acc bits }) }
          bits) := by
  induction bits with
  | nil =>
    intro s w _ _ ho _
    have : ({ s with op := some (.write { w with acc := accumulated s.cfg w.acc [] }) } : State) = s := by
      cases s; simp_all [accumulated]
    rw [this]; simp [send, perform]
  | cons b bs ih =>
    intro s w h hp ho hl
    simp only [List.length_cons] at hl
    have hi : w.acc.Incomplete s.cfg := by show w.acc.count < s.cfg.addrBits; omega
    let t : State :=
      State.sent { s with op := some (.write { w with acc := accumulate s.cfg w.acc b }) } [b]
    have hc : act (.event .clockPulse) (s.sampled b) = .done .ok t := by
      rw [clock_operation (by simpa using hp), opOnClock_write (w := w) (by simpa using ho),
        if_pos (by simpa using hi), writeAddressClock, succeed, logged, succeed]
      congr 1
      simp only [clockedAddr, sampled_cfg, sampled_si, bitOf_pinOf, t]
      rw [← sampled_append]
      rfl
    refine perform_send_cons h hc rfl ?_
    have htr : t.Ready := ready_sent (s := { s with
      op := some (.write { w with acc := accumulate s.cfg w.acc b }) }) h [b]
    rw [ih t { w with acc := accumulate s.cfg w.acc b } htr hp rfl
      (by simp only [accumulate, t, sent_cfg]; omega)]
    rw [sent_cons]
    rfl

/-! ## A Read's data clocks (43_read.md R172) -/

/-- `so` after `n` data clocks from data bit `t` on. -/
def levelRead (s : State) (addr t : Nat) : Nat → Pin → Pin
  | 0, p => p
  | n + 1, _ => streamLevel s addr (t + n)

/-- The stream depends on the configuration and the store alone, where it has a destination. -/
theorem streamLevel_congr {s u : State} (hc : u.cfg = s.cfg) (hs : u.store = s.store) {addr t : Nat}
    (hd : ∃ i, dest s.cfg addr (byteIndex t) = .ok i) :
    streamLevel u addr t = streamLevel s addr t := by
  obtain ⟨i, hi⟩ := hd
  simp only [streamLevel, hc, hi, hs]

theorem streamResults_congr {s u : State} (hc : u.cfg = s.cfg) (hs : u.store = s.store) {addr : Nat}
    (n : Nat) : ∀ t, (∀ j, j < n → ∃ i, dest s.cfg addr (byteIndex (t + j)) = .ok i) →
    streamResults u addr t n = streamResults s addr t n := by
  induction n with
  | zero => intros; rfl
  | succ n ih =>
    intro t hd
    rw [streamResults, streamResults, streamLevel_congr hc hs (t := t) (hd 0 (by omega)),
      ih (t + 1) fun j hj => by rw [Nat.add_right_comm]; exact hd (j + 1) (by omega)]

/-- Every data bit has a destination under Wrap, and under Fail the bits inside the store. -/
theorem dest_byteIndex {c : Config} {addr n : Nat}
    (h : c.endPolicy = .fail → ∀ k, 8 * k < n → addr + k < c.capacity) {t : Nat} (ht : t < n) :
    ∃ i, dest c addr (byteIndex t) = .ok i := by
  cases hp : c.endPolicy with
  | wrap => exact ⟨_, by simp only [dest, hp]; rfl⟩
  | fail =>
    have := h hp (t / 8) (by omega)
    exact ⟨addr + t / 8, by simp only [dest, hp, byteIndex]; exact if_pos this⟩

/-- A READ'S DATA CLOCKS, each followed by the getter: the levels are those of the stream. -/
theorem perform_recv (n : Nat) : ∀ (s : State) (r : ReadOp), s.cfg.Legal → s.phase = .operation →
    s.op = some (.read r) → s.cfg.addrBits ≤ r.acc.count →
    (∀ t, t < n → ∃ i, dest s.cfg r.acc.value (byteIndex (r.nout + t)) = .ok i) →
    perform (recv n) s =
      .ok (streamResults s r.acc.value r.nout n,
        { s with
          so := levelRead s r.acc.value r.nout n s.so
          op := some (.read { r with nout := r.nout + n })
          log := s.log ++ eventsOf (recv n) }) := by
  induction n with
  | zero =>
    intro s r _ _ ho _ _
    cases s
    simp_all [eventsOf, recv, levelRead, perform, streamResults]
  | succ n ih =>
    intro s r hl hp ho ha hd
    have hd' : ∀ j, j < n → ∃ i, dest s.cfg r.acc.value (byteIndex (r.nout + 1 + j)) = .ok i :=
      fun j hj => by rw [Nat.add_right_comm]; exact hd (j + 1) (by omega)
    obtain ⟨i, hi⟩ := hd 0 (by omega)
    rw [Nat.add_zero] at hi
    let t : State :=
      { s with
        so := streamLevel s r.acc.value r.nout
        op := some (.read { r with nout := r.nout + 1 })
        log := s.log ++ [.clockPulse] }
    have hc : act (.event .clockPulse) s = .done .ok t := by
      rw [clock_operation hp, opOnClock_read ho, if_neg (by exact Nat.not_lt.mpr ha), readClock, hi]
      simp only [memRead_of_lt (dest_lt hl hi), succeed, logged, State.append, t, streamLevel, hi]
    have hih := ih t { r with nout := r.nout + 1 } hl hp rfl ha hd'
    have hso : act (.getter .serialOutput) t = .done (.pin t.so) t := rfl
    rw [recv, perform, hc]
    simp only [perform, hso, hih]
    congr 2
    · rw [streamResults, streamResults_congr (u := t) (s := s) rfl rfl n _ hd']
    · have hlev : levelRead t r.acc.value (r.nout + 1) n t.so =
          levelRead s r.acc.value r.nout (n + 1) s.so := by
        cases n with
        | zero => rfl
        | succ m =>
          simp only [levelRead]
          rw [streamLevel_congr (u := t) (s := s) rfl rfl (hd' m (by omega)), Nat.add_assoc,
            Nat.add_comm 1]
      simp only [hlev]
      simp [t, eventsOf, Nat.add_comm, Nat.add_left_comm]

/-- `so` after the data clocks of a Read, from its first data bit on. -/
theorem levelRead_zero (s : State) (addr n : Nat) (p : Pin) :
    levelRead s addr 0 n p = if n = 0 then p else streamLevel s addr (n - 1) := by
  cases n with
  | zero => rfl
  | succ n => simp [levelRead]

/-! ## A Write's data bits (44_write.md R193) -/

/-- The buffer after bits were written into it from data bit `t` on. -/
def fill : List Byte → Nat → List Bool → List Byte
  | buf, _, [] => buf
  | buf, t, b :: bs =>
      fill (buf.modify (byteIndex t) (fun v => setBit v (bitIndex t) b)) (t + 1) bs

theorem fill_append (as bs : List Bool) : ∀ (buf : List Byte) (t : Nat),
    fill buf t (as ++ bs) = fill (fill buf t as) (t + as.length) bs := by
  induction as with
  | nil => intros; rfl
  | cons a as ih =>
    intro buf t
    rw [List.cons_append, fill, fill, ih, List.length_cons]
    congr 1
    omega

@[simp] theorem fill_length (bs : List Bool) : ∀ (buf : List Byte) (t : Nat),
    (fill buf t bs).length = buf.length := by
  induction bs with
  | nil => intros; rfl
  | cons b bs ih => intro buf t; rw [fill, ih, List.length_modify]

/-- Bytes before the one being filled are not touched. -/
theorem fill_getElem?_of_lt (bs : List Bool) : ∀ (buf : List Byte) (t k : Nat), k < byteIndex t →
    (fill buf t bs)[k]? = buf[k]? := by
  induction bs with
  | nil => intros; rfl
  | cons b bs ih =>
    intro buf t k hk
    have hk' : k < byteIndex (t + 1) := by simp only [byteIndex] at *; omega
    have hne : byteIndex t ≠ k := by omega
    rw [fill, ih _ _ _ hk', List.getElem?_modify]
    simp [hne]

/-- The eight bits of a byte fill one byte of the buffer. -/
theorem fill_byteBits (buf : List Byte) (k : Nat) (v : Byte) :
    fill buf (8 * k) (byteBits v) = buf.modify k (fun _ => v) := by
  simp only [byteBits, natBits, fill]
  have hb : ∀ j, j < 8 → byteIndex (8 * k + j) = k := by
    intro j hj; simp only [byteIndex]; omega
  have hx : ∀ j, j < 8 → bitIndex (8 * k + j) = 7 - j := by
    intro j hj; simp only [bitIndex]; omega
  simp only [Nat.add_assoc, Nat.reduceAdd]
  rw [show byteIndex (8 * k) = k from hb 0 (by omega), show bitIndex (8 * k) = 7 from hx 0 (by omega),
    hb 1 (by omega), hb 2 (by omega), hb 3 (by omega), hb 4 (by omega), hb 5 (by omega),
    hb 6 (by omega), hb 7 (by omega), hx 1 (by omega), hx 2 (by omega), hx 3 (by omega),
    hx 4 (by omega), hx 5 (by omega), hx 6 (by omega), hx 7 (by omega)]
  refine List.ext_getElem? fun j => ?_
  simp only [List.getElem?_modify]
  split
  · cases buf[j]? with
    | none => rfl
    | some x =>
      have := shiftIn_byteBits x v
      simp only [byteBits, natBits, shiftIn, Nat.reduceSub] at this
      simpa using this
  · simp

/-- THE FILLED PORTION after the bits of complete bytes and a partial one is those bytes. -/
theorem fill_bytesBits (data : List Byte) : ∀ (buf : List Byte) (k : Nat) (tail : List Bool),
    k + data.length ≤ buf.length →
    (fill buf (8 * k) (bytesBits data ++ tail)).take (k + data.length) = buf.take k ++ data := by
  induction data with
  | nil =>
    intro buf k tail hk
    rw [bytesBits, List.nil_append, List.length_nil, Nat.add_zero, List.append_nil]
    refine List.ext_getElem? fun j => ?_
    rw [List.getElem?_take, List.getElem?_take]
    split
    · exact fill_getElem?_of_lt _ _ _ _ (by simp only [byteIndex]; omega)
    · rfl
  | cons v vs ih =>
    intro buf k tail hk
    simp only [List.length_cons] at hk
    rw [bytesBits, List.append_assoc, fill_append, byteBits_length, fill_byteBits,
      show 8 * k + 8 = 8 * (k + 1) by ring, List.length_cons,
      show k + (vs.length + 1) = k + 1 + vs.length by omega, ih _ _ _ (by simp; omega)]
    rw [show v :: vs = [v] ++ vs from rfl, ← List.append_assoc]
    congr 1
    rw [List.take_add_one, List.getElem?_modify]
    have : buf[k]? = some (buf[k]'(by omega)) := List.getElem?_eq_getElem (by omega)
    rw [this]
    simp only [Option.map_eq_map, Option.map_some, Option.toList_some, if_true]
    congr 1
    refine List.ext_getElem? fun j => ?_
    rw [List.getElem?_take, List.getElem?_take, List.getElem?_modify]
    split
    · have hne : k ≠ j := by omega
      simp [hne]
    · rfl

/-- A WRITE'S DATA BITS over erased destinations and within the buffer: each is accepted. -/
theorem perform_send_write_data (bits : List Bool) : ∀ (s : State) (w : WriteOp), s.cfg.Legal →
    s.Ready → s.phase = .operation → s.op = some (.write w) → s.cfg.addrBits ≤ w.acc.count →
    w.nin + bits.length ≤ 8 * s.cfg.wbufCap →
    (∀ k, w.nin ≤ 8 * k → 8 * k < w.nin + bits.length →
      ∃ i, dest s.cfg w.acc.value k = .ok i ∧ s.store.read i = erasedByte) →
    perform (send s.si bits) s =
      .ok (List.replicate (send s.si bits).length .ok,
        State.sent
          { s with
            op := some (.write { w with buf := fill w.buf w.nin bits, nin := w.nin + bits.length }) }
          bits) := by
  induction bits with
  | nil =>
    intro s w _ _ _ ho _ _ _
    have : ({ s with op := some (.write { w with buf := fill w.buf w.nin [], nin := w.nin + ([] : List Bool).length }) } : State) = s := by
      cases s; simp_all [fill]
    rw [this]; simp [send, perform]
  | cons b bs ih =>
    intro s w hl h hp ho ha hcap hd
    simp only [List.length_cons] at hcap hd
    let w' : WriteOp :=
      { w with
        buf := w.buf.modify (byteIndex w.nin) (fun v => setBit v (bitIndex w.nin) b)
        nin := w.nin + 1 }
    let t : State := State.sent { s with op := some (.write w') } [b]
    have hacc : acceptDataBit w (s.sampled b) = .done .ok { s.sampled b with op := some (.write w') } := by
      simp only [acceptDataBit, succeed, sampled_si, bitOf_pinOf]
      rfl
    have hc : act (.event .clockPulse) (s.sampled b) = .done .ok t := by
      have hwc : writeClock w (s.sampled b) = acceptDataBit w (s.sampled b) := by
        unfold writeClock
        split
        · next h0 =>
          obtain ⟨i, hi, he⟩ := hd (w.nin / 8) (by omega) (by omega)
          rw [if_neg (by simp only [sampled_cfg, byteIndex]; omega)]
          simp only [sampled_cfg, byteIndex, hi]
          rw [memRead_of_lt (by exact dest_lt hl hi)]
          simp only [sampled_store, he, isErased, decide_true, if_true]
        · rfl
      rw [clock_operation (by simpa using hp), opOnClock_write (w := w) (by simpa using ho),
        if_neg (by exact Nat.not_lt.mpr ha), hwc, hacc, logged, succeed]
      congr 1
      exact sampled_append { s with op := some (.write w') } b
    refine perform_send_cons h hc rfl ?_
    have htr : t.Ready := ready_sent (s := { s with op := some (.write w') }) h [b]
    rw [ih t w' hl htr hp rfl ha (by simp only [w', t, sent_cfg]; omega) (by
      intro k hk hk'
      exact hd k (by simp only [w'] at hk; omega) (by simp only [w'] at hk'; omega))]
    rw [sent_cons, List.length_cons]
    congr 3
    simp only [w', fill, Nat.add_assoc, Nat.add_comm 1]
    rfl

/-! ## A command from its selecting toggle on -/

/-- A command in progress: selected from `s`, its opcode `c` complete, its operation in the state `o`,
after `bits` were clocked in. -/
def State.opened (s : State) (c : Command) (o : Operation) (bits : List Bool) : State :=
  State.sent
    { select s with ir := c.opcode, irCount := 0, phase := .operation, op := some o } bits

theorem ready_opened (s : State) (c : Command) (o : Operation) (bits : List Bool) :
    (s.opened c o bits).Ready := by
  refine ready_sent (s := { select s with
    ir := c.opcode, irCount := 0, phase := .operation, op := some o }) ⟨?_, (ready_select s).2⟩ bits
  exact fun h => by cases h

@[simp] theorem opened_cfg (s : State) (c : Command) (o : Operation) (bits : List Bool) :
    (s.opened c o bits).cfg = s.cfg := rfl
@[simp] theorem opened_phase (s : State) (c : Command) (o : Operation) (bits : List Bool) :
    (s.opened c o bits).phase = .operation := rfl
@[simp] theorem opened_op (s : State) (c : Command) (o : Operation) (bits : List Bool) :
    (s.opened c o bits).op = some o := rfl
@[simp] theorem opened_store (s : State) (c : Command) (o : Operation) (bits : List Bool) :
    (s.opened c o bits).store = s.store := rfl
@[simp] theorem opened_wel (s : State) (c : Command) (o : Operation) (bits : List Bool) :
    (s.opened c o bits).wel = s.wel := rfl
@[simp] theorem opened_so (s : State) (c : Command) (o : Operation) (bits : List Bool) :
    (s.opened c o bits).so = s.so := rfl
@[simp] theorem opened_si (s : State) (c : Command) (o : Operation) (bits : List Bool) :
    (s.opened c o bits).si = levelAfter s.si bits := rfl

theorem opened_sent (s : State) (c : Command) (o o' : Operation) (as bs : List Bool) :
    State.sent { s.opened c o as with op := some o' } bs = s.opened c o' (as ++ bs) := by
  exact sent_sent { select s with
    ir := c.opcode, irCount := 0, phase := .operation, op := some o' } as bs

/-- A COMMAND CLOSED: the chip is deselected; the pins and the log are what its frame makes them. -/
theorem deselect_opened (s : State) (c : Command) (o : Operation) (bits : List Bool) :
    deselect (s.opened c o bits) =
      { s with
        si := levelAfter s.si bits, op := none, ir := 0x00#8, irCount := 0, phase := .deselected
        ce := .high, log := s.log ++ eventsOf (frameActions s.si bits) } := by
  rw [eventsOf_frameActions]
  simp [deselect, State.opened, State.append, State.sent, select]

/-- A COMMAND'S OPCODE, accepted: the operation is created. -/
theorem perform_send_opened {s : State} (c : Command) (hw : latchAllows s c = true) :
    perform (send (select s).si (byteBits c.opcode)) (select s) =
      .ok (List.replicate (send s.si (byteBits c.opcode)).length .ok,
        s.opened c (newOperation s.cfg c) (byteBits c.opcode)) :=
  perform_send_command c hw

/-- A Write as it is when its address is complete. -/
def addressedWrite (c : Config) (addr : Nat) : WriteOp :=
  { acc := { value := addr, count := c.addrBits }
    buf := List.replicate c.wbufCap 0x00#8, nin := 0, aborted := false }

/-- THE HEAD OF A WRITE: opcode and address. -/
theorem perform_send_write_head {s : State} (hw : s.wel = true) {addr : Nat}
    (ha : addr < 2 ^ s.cfg.addrBits) :
    perform (send (select s).si (byteBits Command.write.opcode ++ natBits s.cfg.addrBits addr))
        (select s) =
      .ok
        (List.replicate
            (send s.si (byteBits Command.write.opcode ++ natBits s.cfg.addrBits addr)).length .ok,
          s.opened .write (.write (addressedWrite s.cfg addr))
            (byteBits Command.write.opcode ++ natBits s.cfg.addrBits addr)) := by
  have h := perform_send_opened (s := s) .write (by simp [latchAllows, hw])
  have h2 := perform_send_write_address (natBits s.cfg.addrBits addr) _
    { acc := emptyAddr, buf := List.replicate s.cfg.wbufCap 0x00#8, nin := 0, aborted := false }
    (ready_opened s .write (newOperation s.cfg .write) (byteBits Command.write.opcode)) rfl rfl
    (by simp [emptyAddr])
  rw [perform_send_append h rfl h2]
  congr 2
  · rw [List.replicate_append_replicate, send_append, List.length_append]
    rfl
  · rw [opened_sent]
    simp only [opened_cfg, accumulated_natBits ha]
    rfl

/-- THE HEAD OF A READ: opcode and address. -/
theorem perform_send_read_head {s : State} {addr : Nat} (ha : addr < 2 ^ s.cfg.addrBits) :
    perform (send (select s).si (byteBits Command.read.opcode ++ natBits s.cfg.addrBits addr))
        (select s) =
      .ok
        (List.replicate
            (send s.si (byteBits Command.read.opcode ++ natBits s.cfg.addrBits addr)).length .ok,
          s.opened .read (.read { acc := { value := addr, count := s.cfg.addrBits }, nout := 0 })
            (byteBits Command.read.opcode ++ natBits s.cfg.addrBits addr)) := by
  have h := perform_send_opened (s := s) .read rfl
  have h2 := perform_send_read_address (natBits s.cfg.addrBits addr) _
    { acc := emptyAddr, nout := 0 }
    (ready_opened s .read (newOperation s.cfg .read) (byteBits Command.read.opcode)) rfl rfl
    (by simp [emptyAddr])
  rw [perform_send_append h rfl h2]
  congr 2
  · rw [List.replicate_append_replicate, send_append, List.length_append]
    rfl
  · rw [opened_sent]
    simp only [opened_cfg, accumulated_natBits ha]

/-- The frame of a Write is its head and its data. -/
theorem frameBits_write (c : Config) (addr : Nat) (data : List Byte) (tail : List Bool) :
    frameBits c (.write addr data tail) =
      (byteBits Command.write.opcode ++ natBits c.addrBits addr) ++ (bytesBits data ++ tail) := by
  simp only [frameBits, List.append_assoc]

/-- A Write whose `n` data bits were accepted. -/
def filledWrite (c : Config) (addr : Nat) (bits : List Bool) : WriteOp :=
  { addressedWrite c addr with
    buf := fill (List.replicate c.wbufCap 0x00#8) 0 bits, nin := bits.length }

/-- THE WHOLE FRAME OF A WRITE over erased destinations and within the buffer. -/
theorem perform_send_write {s : State} {addr : Nat} {bits : List Bool} (hc : s.cfg.Legal)
    (hw : s.wel = true) (ha : addr < 2 ^ s.cfg.addrBits) (hn : bits.length ≤ 8 * s.cfg.wbufCap)
    (hd : ∀ k, 8 * k < bits.length →
      ∃ i, dest s.cfg addr k = .ok i ∧ s.store.read i = erasedByte) :
    perform
        (send (select s).si
          ((byteBits Command.write.opcode ++ natBits s.cfg.addrBits addr) ++ bits))
        (select s) =
      .ok
        (List.replicate
            (send s.si
              ((byteBits Command.write.opcode ++ natBits s.cfg.addrBits addr) ++ bits)).length .ok,
          s.opened .write (.write (filledWrite s.cfg addr bits))
            ((byteBits Command.write.opcode ++ natBits s.cfg.addrBits addr) ++ bits)) := by
  have h2 := perform_send_write_data bits
    (s.opened .write (.write (addressedWrite s.cfg addr))
      (byteBits Command.write.opcode ++ natBits s.cfg.addrBits addr))
    (addressedWrite s.cfg addr) hc
    (ready_opened s .write (.write (addressedWrite s.cfg addr))
      (byteBits Command.write.opcode ++ natBits s.cfg.addrBits addr)) rfl rfl (Nat.le_refl _)
    (by simpa [addressedWrite] using hn)
    (fun k _ hk => hd k (by simpa [addressedWrite] using hk))
  rw [perform_send_append (perform_send_write_head hw ha) rfl h2]
  congr 2
  · rw [List.replicate_append_replicate, send_append (as := byteBits _ ++ _), List.length_append]
    rfl
  · rw [opened_sent]
    simp only [filledWrite, addressedWrite, Nat.zero_add]

/-- The filled portion of a Write's buffer is the complete bytes of its data. -/
theorem filledBytes_filledWrite {c : Config} {addr : Nat} {data : List Byte} {tail : List Bool}
    (ht : tail.length < 8) (hn : data.length ≤ c.wbufCap) :
    filledBytes (filledWrite c addr (bytesBits data ++ tail)) = data := by
  have h := fill_bytesBits data (List.replicate c.wbufCap 0x00#8) 0 tail (by simpa using hn)
  simp only [Nat.mul_zero, Nat.zero_add, List.take_zero, List.nil_append] at h
  simp only [filledBytes, filledWrite, byteIndex, List.length_append, bytesBits_length]
  rw [show (8 * data.length + tail.length) / 8 = data.length by omega, h]

/-- A WRITE'S DATA BITS at a destination that is not erased: each one aborts the Write and is
logged, and none is accepted (44_write.md R194). -/
theorem perform_send_write_refused (bits : List Bool) : ∀ (s : State) (w : WriteOp) (i : Nat),
    s.cfg.Legal → s.Ready → s.phase = .operation → s.op = some (.write w) →
    s.cfg.addrBits ≤ w.acc.count → w.nin % 8 = 0 → byteIndex w.nin < s.cfg.wbufCap →
    dest s.cfg w.acc.value (byteIndex w.nin) = .ok i → s.store.read i ≠ erasedByte → bits ≠ [] →
    ∃ rs, perform (send s.si bits) s =
      .ok (rs, State.sent { s with op := some (.write { w with aborted := true }) } bits) ∧
      .err (.nonErasedWrite i) ∈ rs := by
  induction bits with
  | nil => intros; contradiction
  | cons b bs ih =>
    intro s w i hl h hp ho ha h0 hf hd he _
    let t : State := State.sent { s with op := some (.write { w with aborted := true }) } [b]
    have hc : act (.event .clockPulse) (s.sampled b) = .done (.err (.nonErasedWrite i)) t := by
      rw [act_of_acts (s := s.sampled b) hl (.writeNonErased (w := w) hp ho
        (by exact Nat.not_lt.mpr ha) h0 hf hd (dest_lt hl hd) he)]
      congr 1
      simp only [t]
      rw [← sampled_append]
      rfl
    have h1 := perform_send_one h hc
    have htr : t.Ready := ready_sent (s := { s with
      op := some (.write { w with aborted := true }) }) h [b]
    cases bs with
    | nil => exact ⟨_, h1, by simp⟩
    | cons b' bs =>
      obtain ⟨rs, hr, -⟩ := ih t { w with aborted := true } i hl htr hp rfl ha h0 hf hd he (by simp)
      refine ⟨List.replicate (toggles s.si b).length .ok ++ [.err (.nonErasedWrite i)] ++ rs,
        (perform_send_append (as := [b]) h1 rfl hr).trans ?_, by simp⟩
      have hs := sent_sent { s with op := some (.write { w with aborted := true }) } [b] (b' :: bs)
      rw [List.singleton_append] at hs
      rw [← hs]
      rfl

/-! ## Every action answers (60_exceptions.md R264) -/

/-- What a state needs for every action to answer: the operation and the bit counter that
10_state.md R27 says its phase has. -/
abbrev State.Answers (s : State) : Prop :=
  s.cfg.Legal ∧ (s.phase = .command → 1 ≤ s.irCount ∧ s.irCount ≤ 8) ∧
    (s.phase = .operation → s.op ≠ none)

theorem answers_of_deselected {s : State} (hc : s.cfg.Legal) (h : s.phase = .deselected) :
    s.Answers :=
  ⟨hc, by simp [h], by simp [h]⟩

/-- In such a state every action answers. -/
theorem act_answers {s : State} (h : s.Answers) (a : HostAction) : ∃ r t, act a s = .done r t := by
  obtain ⟨hl, hcmd, hop⟩ := h
  cases a with
  | getter p => exact ⟨_, _, rfl⟩
  | event e =>
    cases e with
    | waitForWrite => exact ⟨_, _, rfl⟩
    | inputToggle =>
      simp only [act, actEvent, toggleSerialInput]
      split
      · exact ⟨_, _, rfl⟩
      · split <;> exact ⟨_, _, rfl⟩
    | enableToggle =>
      cases hp : s.phase with
      | deselected => exact ⟨_, _, enable_deselected hp⟩
      | command => exact ⟨_, _, enable_command hp⟩
      | operation =>
        rw [enable_operation hp]
        cases ho : s.op with
        | none => exact absurd ho (hop hp)
        | some o =>
          cases o with
          | read r =>
            by_cases hi : r.acc.Incomplete s.cfg
            · exact ⟨_, _, endCommand_err (by rw [opOnChipEnable_read ho, if_pos hi]; rfl)⟩
            · exact ⟨_, _, endCommand_ok (by rw [opOnChipEnable_read ho, if_neg hi]; rfl)⟩
          | write w =>
            by_cases hi : w.acc.Incomplete s.cfg
            · exact ⟨_, _, endCommand_err (by rw [opOnChipEnable_write ho, if_pos hi]; rfl)⟩
            · have ho' := opOnChipEnable_write ho
              rw [if_neg hi] at ho'
              unfold writeEnd at ho'
              by_cases hd : HasDests s.cfg w.acc.value 0
                (if w.aborted = true then [] else filledBytes w).length
              · rw [commitFrom_eq _ _ _ _ hl hd] at ho'
                exact ⟨_, _, endCommand_ok ho'⟩
              · obtain ⟨t, ht⟩ := commitFrom_past (addr := w.acc.value) _ 0 s hl hd
                rw [ht] at ho'
                exact ⟨_, _, endCommand_err ho'⟩
          | writeEnable =>
            have ho' := opOnChipEnable_writeEnable ho
            unfold wrenEnd at ho'
            split at ho'
            · exact ⟨_, _, endCommand_err ho'⟩
            · exact ⟨_, _, endCommand_ok ho'⟩
          | chipErase => exact ⟨_, _, endCommand_ok (opOnChipEnable_chipErase ho)⟩
    | clockPulse =>
      cases hp : s.phase with
      | deselected => exact ⟨_, _, clock_deselected hp⟩
      | command =>
        obtain ⟨h1, h8⟩ := hcmd hp
        rw [clock_command hp]
        by_cases hlast : s.irCount = 1
        · rw [commandClock_last hlast]
          cases hl : lookupOpcode (shiftOpcode s).ir with
          | none => rw [dispatchOpcode_none hl]; exact ⟨_, _, rfl⟩
          | some c => rw [dispatchOpcode_some hl]; split <;> exact ⟨_, _, rfl⟩
        · rw [commandClock_shift (by omega) h8]; exact ⟨_, _, rfl⟩
      | operation =>
        rw [clock_operation hp]
        cases ho : s.op with
        | none => exact absurd ho (hop hp)
        | some o =>
          cases o with
          | read r =>
            rw [opOnClock_read ho]
            split
            · exact ⟨_, _, rfl⟩
            · unfold readClock
              cases hd : dest s.cfg r.acc.value (byteIndex r.nout) with
              | error e => exact ⟨_, _, rfl⟩
              | ok i => simp only [memRead_of_lt (dest_lt hl hd)]; exact ⟨_, _, rfl⟩
          | write w =>
            rw [opOnClock_write ho]
            split
            · exact ⟨_, _, rfl⟩
            · unfold writeClock
              split
              · split
                · exact ⟨_, _, rfl⟩
                · cases hd : dest s.cfg w.acc.value (byteIndex w.nin) with
                  | error e => exact ⟨_, _, rfl⟩
                  | ok i =>
                    simp only [memRead_of_lt (dest_lt hl hd)]
                    split <;> exact ⟨_, _, rfl⟩
              · exact ⟨_, _, rfl⟩
          | writeEnable => rw [opOnClock_opcodeOnly (.inl ho)]; exact ⟨_, _, rfl⟩
          | chipErase => rw [opOnClock_opcodeOnly (.inr ho)]; exact ⟨_, _, rfl⟩

/-- And leaves such a state. -/
theorem answers_act {a : HostAction} {s t : State} {r : Result} (h : s.Answers)
    (ha : act a s = .done r t) : t.Answers := by
  obtain ⟨hl, hcmd, hop⟩ := h
  cases acts_of_act ha <;>
    first
    | exact ⟨hl, hcmd, hop⟩
    | (refine ⟨hl, ?_, ?_⟩ <;> simp_all <;> omega)

/-- Every sequence of actions performs. -/
theorem perform_answers (as : List HostAction) : ∀ s : State, s.Answers →
    ∃ rs t, perform as s = .ok (rs, t) := by
  induction as with
  | nil => intro s _; exact ⟨[], s, rfl⟩
  | cons a as ih =>
    intro s h
    obtain ⟨r, t, ha⟩ := act_answers h a
    obtain ⟨rs, u, hp⟩ := ih t (answers_act h ha)
    exact ⟨r :: rs, u, perform_cons_ok.mpr ⟨r, t, rs, ha, hp, rfl⟩⟩

/-- Every step that conducts actions answers a next state. -/
theorem conduct_answers (as : List HostAction) {s : State} (h : s.Answers) :
    ∃ t, conduct as s = .next t := by
  obtain ⟨rs, t, hp⟩ := perform_answers as s h
  exact ⟨_, conduct_of_perform h.1 hp⟩

end Sys2Proof.Machine
end

