-- ==== Sys2Proof/Laws/PerInstr.lean ====
section
/-! SUPPORT. One lemma per instruction: how many wire bits its frame has (30_encoding.md R81). A host
action has no frame. -/

namespace Sys2Proof.Laws

/-- The frame length of the formats of 30_encoding.md R81. -/
def frameLength (c : Config) : Instr → Nat
  | .write _ data tail => 8 + c.addrBits + 8 * data.length + tail.length
  | .read _ clocks => 8 + c.addrBits + clocks
  | .wren => 8
  | .chipErase => 8
  | .unknownOpcode _ => 8
  | .ce => 0
  | .si => 0
  | .clk => 0
  | .waitForWrite => 0
  | .getChipEnable => 0
  | .getSerialInput => 0
  | .getSerialOutput => 0

/-- An instruction's frame has the length its format says. -/
def FrameLength.Statement (i : Instr) : Prop :=
  ∀ c : Config, (frameBits c i).length = frameLength c i

theorem FrameLength.write (addr : Nat) (data : List Byte) (tail : List Bool) :
    FrameLength.Statement (.write addr data tail) := by
  intro c
  simp [frameBits, frameLength, Nat.add_assoc]

theorem FrameLength.read (addr clocks : Nat) : FrameLength.Statement (.read addr clocks) := by
  intro c
  simp [frameBits, frameLength, Nat.add_assoc]

theorem FrameLength.wren : FrameLength.Statement .wren := fun _ => byteBits_length _

theorem FrameLength.chipErase : FrameLength.Statement .chipErase := fun _ => byteBits_length _

theorem FrameLength.unknownOpcode (op : Byte) : FrameLength.Statement (.unknownOpcode op) :=
  fun _ => byteBits_length _

theorem FrameLength.ce : FrameLength.Statement .ce := fun _ => rfl

theorem FrameLength.si : FrameLength.Statement .si := fun _ => rfl

theorem FrameLength.clk : FrameLength.Statement .clk := fun _ => rfl

theorem FrameLength.waitForWrite : FrameLength.Statement .waitForWrite := fun _ => rfl

theorem FrameLength.getChipEnable : FrameLength.Statement .getChipEnable := fun _ => rfl

theorem FrameLength.getSerialInput : FrameLength.Statement .getSerialInput := fun _ => rfl

theorem FrameLength.getSerialOutput : FrameLength.Statement .getSerialOutput := fun _ => rfl

end Sys2Proof.Laws
end

