-- ==== Sys2Proof/Laws/Step.lean ====
section
/-! SUPPORT. What an instruction and a step can do: each conducts a sequence of host actions, so what
every action keeps, every instruction and every step keeps. -/

namespace Sys2Proof.Machine

/-- The host actions an instruction is, in a state. -/
def actionsOf : Instr → State → List HostAction
  | .write addr data tail, s => frameActions s.si (frameBits s.cfg (.write addr data tail))
  | .read addr clocks, s => readActions s.cfg s.si addr clocks
  | .wren, s => frameActions s.si (frameBits s.cfg .wren)
  | .chipErase, s => frameActions s.si (frameBits s.cfg .chipErase)
  | .unknownOpcode op, s => frameActions s.si (frameBits s.cfg (.unknownOpcode op))
  | .ce, _ => [.event .enableToggle]
  | .si, _ => [.event .inputToggle]
  | .clk, _ => [.event .clockPulse]
  | .waitForWrite, _ => [.event .waitForWrite]
  | .getChipEnable, _ => [.getter .chipEnable]
  | .getSerialInput, _ => [.getter .serialInput]
  | .getSerialOutput, _ => [.getter .serialOutput]

/-- An instruction conducts its actions. -/
theorem exec_eq (i : Instr) (s : State) : exec i s = conduct (actionsOf i s) s := by
  cases i <;> rfl

/-- EVERYTHING A STEP CAN DO where it answers a next state: nothing, where there is no request; or
conduct a sequence of host actions. -/
theorem step_cases {s t : State} (h : step s = .next t) :
    (s.input = [] ∧ t = { s with returned := [] }) ∨
      ∃ r rest as, s.input = r :: rest ∧ conduct as { s with input := rest } = .next t := by
  unfold step nextRequest at h
  cases hi : s.input with
  | nil =>
    rw [hi] at h
    simp only [idle] at h
    split at h
    · cases h; exact .inl ⟨rfl, by rw [hi]⟩
    · cases h
  | cons r rest =>
    rw [hi] at h
    simp only at h
    split at h
    · next i _ =>
      rw [exec_eq] at h
      exact .inr ⟨r, rest, _, rfl, h⟩
    · exact .inr ⟨r, rest, _, rfl, h⟩

/-- A request that does not decode is a frame. -/
theorem request_of_decode_error {c : Config} {r : Request} {e : DecodeError}
    (h : decode c r.code = .error e) : ∃ bits, r = .frame bits := by
  cases r with
  | event x => cases x <;> cases h
  | getter p => cases h
  | frame bits => exact ⟨bits, rfl⟩

/-- What no host action and no change on the host's side breaks, no step breaks. -/
theorem step_induction {P : State → Prop}
    (host : ∀ s input returned, P s → P { s with input := input, returned := returned })
    (action : ∀ a s r t, P s → act a s = .done r t → P t) {s t : State} (h : step s = .next t)
    (hs : P s) : P t := by
  rcases step_cases h with ⟨-, rfl⟩ | ⟨r, rest, as, -, hc⟩
  · exact host s s.input [] hs
  · obtain ⟨-, u, hu, ht⟩ := perform_of_conduct hc
    rw [ht]
    exact host u u.input t.returned
      (perform_induction (fun a _ s r t => action a s r t) hu (host s rest s.returned hs))

/-- An action changes no parameter. -/
theorem act_cfg {a : HostAction} {s t : State} {r : Result} (h : act a s = .done r t) :
    t.cfg = s.cfg := by
  cases acts_of_act h <;> rfl

/-- An action leaves the host's queue alone. -/
theorem act_input {a : HostAction} {s t : State} {r : Result} (h : act a s = .done r t) :
    t.input = s.input := by
  cases acts_of_act h <;> rfl

/-- A request for one host action decodes to the instruction that is that action alone. -/
theorem decode_hostRequest (c : Config) (a : HostAction) (s : State) :
    ∃ i, decode c (hostRequest a).code = .ok i ∧ actionsOf i s = [a] := by
  cases a with
  | event e => cases e <;> exact ⟨_, rfl, rfl⟩
  | getter p => cases p <;> exact ⟨_, rfl, rfl⟩

theorem perform_length {as : List HostAction} {s t : State} {rs : List Result}
    (h : perform as s = .ok (rs, t)) : rs.length = as.length := by
  induction as generalizing s rs with
  | nil => cases h; rfl
  | cons a as ih =>
    obtain ⟨r, u, rs', -, hp, rfl⟩ := perform_cons_ok.mp h
    rw [List.length_cons, List.length_cons, ih hp]

/-- Where every action answers, every instruction answers a next state. -/
theorem exec_answers (i : Instr) {s : State} (h : s.Answers) : ∃ t, exec i s = .next t := by
  rw [exec_eq]
  exact conduct_answers _ h

/-- And every step does. -/
theorem step_answers {s : State} (h : s.Answers) : ∃ t, step s = .next t := by
  unfold step nextRequest
  cases s.input with
  | nil => exact ⟨_, if_pos h.1⟩
  | cons r rest =>
    simp only
    split
    · exact exec_answers _ (s := { s with input := rest }) h
    · exact conduct_answers (requestActions s.si r) (s := { s with input := rest }) h

/-- The invariant of 10_state.md R27 has what every action needs to answer. -/
theorem answers_of_inv {s : State} (h : s.Inv) : s.Answers := by
  obtain ⟨hc, hp, -, -⟩ := h
  refine ⟨hc, fun h => ?_, fun h ho => ?_⟩
  · simp [phaseOk, h] at hp
    omega
  · simp [phaseOk, h, operationOk, ho] at hp

end Sys2Proof.Machine
end

