-- ==== Sys2Proof/Tests/Slice0.lean ====
section
/-! SUPPORT. The model's own tests: the smoke test of WellFormed, the decoding of each instruction
from bits written out from 30_encoding.md, at most two one-step tests per instruction with the values
that 95_test_vectors.md or a rule gives, and, for each statement with hypotheses, a witness that meets
them. -/

namespace Sys2Proof.Tests

open Sys2Proof.Machine

/-! ## Small chips -/

/-- CFG-B of 95_test_vectors.md: 8 address bits, 16 bytes, a buffer of 2, Fail. -/
abbrev cfgB : Config := { addrBits := 8, capacity := 16, wbufCap := 2, endPolicy := .fail }

/-- CFG-D of 95_test_vectors.md: 4 address bits, 8 bytes, a buffer of 8, Wrap. -/
abbrev cfgD : Config := { addrBits := 4, capacity := 8, wbufCap := 8, endPolicy := .wrap }

/-- A configuration whose buffer is larger than its store. -/
abbrev cfgBad : Config := { cfgD with wbufCap := 9 }

/-- A deselected chip whose store is erased. -/
abbrev blank (c : Config) (wel : Bool) : State :=
  { freshState c with store := Memory.erased c.capacity, wel := wel }

/-- A chip in CommandPhase. -/
abbrev inCommand (c : Config) (ir : Byte) (n : Nat) (si : Pin) : State :=
  { freshState c with ce := .low, phase := .command, ir := ir, irCount := n, si := si }

/-- A blank chip in OperationPhase. -/
abbrev inOperation (c : Config) (ir : Byte) (wel : Bool) (o : Operation) : State :=
  { blank c wel with ce := .low, phase := .operation, ir := ir, op := some o }

/-- A Write on CFG-B at an address, with `n` data bits accepted. -/
abbrev writing (addr n : Nat) : WriteOp :=
  { acc := { value := addr, count := 8 }, buf := [0x11#8, 0x22#8], nin := n, aborted := false }

/-- A Read on CFG-B at an address, with `n` data bits driven. -/
abbrev reading (addr n : Nat) : ReadOp := { acc := { value := addr, count := 8 }, nout := n }

/-- What a next state holds. -/
abbrev after {α : Type} (f : State → α) : Host.Outcome State Fault Refusal → Option α
  | .next t => some (f t)
  | .fault _ => none
  | .refused _ => none

/-! ## WellFormed refuses what each check is for -/

theorem test_wellFormed_write_address : Instr.wellFormed cfgD (.write 16 [] []) = false := by decide

theorem test_wellFormed_write_tail :
    Instr.wellFormed cfgD (.write 0 [] (List.replicate 8 true)) = false := by decide

theorem test_wellFormed_write_data :
    Instr.wellFormed cfgB (.write 0 [0x01#8, 0x02#8, 0x03#8] []) = false := by decide

theorem test_wellFormed_write_data_and_tail :
    Instr.wellFormed cfgB (.write 0 [0x01#8, 0x02#8] [true]) = false := by decide

theorem test_wellFormed_read_address : Instr.wellFormed cfgD (.read 16 0) = false := by decide

theorem test_wellFormed_unknownOpcode :
    knownOpcodes.all (fun op => !Instr.wellFormed cfgD (.unknownOpcode op)) = true := by decide

theorem test_wellFormed_accepts :
    Instr.wellFormed cfgB (.write 255 [0x01#8] (List.replicate 7 true)) = true ∧
      Instr.wellFormed cfgB (.read 255 9) = true ∧
      Instr.wellFormed cfgB (.unknownOpcode 0x9F#8) = true := by decide

/-! ## Decoding: bits written out from 30_encoding.md R81, R83, R88 -/

/-- 0x02 = 0000 0010; address 0x7 of 4 bits; 0xC3 = 1100 0011; a partial byte 1010. -/
theorem test_decode_write :
    decode cfgD
      (.frame
        [false, false, false, false, false, false, true, false, false, true, true, true,
          true, true, false, false, false, false, true, true, true, false, true, false]) =
      .ok (.write 7 [0xC3#8] [true, false, true, false]) := by decide

/-- 0x03 = 0000 0011; address 0x9 of 4 bits; two data clocks, whatever the level. -/
theorem test_decode_read :
    decode cfgD
      (.frame
        [false, false, false, false, false, false, true, true, true, false, false, true,
          false, true]) = .ok (.read 9 2) := by decide

/-- 0x06 = 0000 0110. -/
theorem test_decode_wren :
    decode cfgD (.frame [false, false, false, false, false, true, true, false]) = .ok .wren := by
  decide

/-- 0x60 = 0110 0000. -/
theorem test_decode_chipErase :
    decode cfgD (.frame [false, true, true, false, false, false, false, false]) =
      .ok .chipErase := by decide

/-- 0x9F = 1001 1111 (30_encoding.md R86). -/
theorem test_decode_unknownOpcode :
    decode cfgD (.frame [true, false, false, true, true, true, true, true]) =
      .ok (.unknownOpcode 0x9F#8) := by decide

theorem test_decode_ce : decode cfgD (.char 'e') = .ok .ce := by decide

theorem test_decode_si : decode cfgD (.char 'i') = .ok .si := by decide

theorem test_decode_clk : decode cfgD (.char 'c') = .ok .clk := by decide

theorem test_decode_waitForWrite : decode cfgD (.char 'w') = .ok .waitForWrite := by decide

theorem test_decode_getChipEnable :
    decode cfgD (.getter .chipEnable) = .ok .getChipEnable := by decide

theorem test_decode_getSerialInput :
    decode cfgD (.getter .serialInput) = .ok .getSerialInput := by decide

theorem test_decode_getSerialOutput :
    decode cfgD (.getter .serialOutput) = .ok .getSerialOutput := by decide

/-- An upper-case letter is no event (V36); a frame of seven bits, a Read without its whole address,
and a ninth bit after 0x06 match no format. -/
theorem test_decode_rejects :
    decode cfgD (.char 'E') = .error (.notAnEvent 'E') ∧
      decode cfgD (.frame (List.replicate 7 false)) = .error .opcodeIncomplete ∧
      decode cfgD (.frame [false, false, false, false, false, false, true, true, false, false,
        false]) = .error .addressIncomplete ∧
      decode cfgD (.frame [false, false, false, false, false, true, true, false, true]) =
        .error .extraClocks := by decide

/-! ## One step per test -/

/-- V19: byte 0 at index 7, byte 1 wraps to index 0; the latch is cleared. -/
theorem test_write_wraps :
    after (fun t => (t.store.read 7, t.store.read 0, t.store.read 1, t.wel))
      (exec (.write 7 [0x11#8, 0x22#8] []) (blank cfgD true)) =
      some (0x11#8, 0x22#8, 0xFF#8, false) := by decide

/-- P4: a fresh store is 0x00, so the first data bit is a NonErasedWrite at the address. -/
theorem test_write_fresh :
    after (fun t => (t.returned.contains (.err (.nonErasedWrite 3)), t.store, t.wel))
      (exec (.write 3 [0x55#8] []) { freshState cfgD with wel := true }) =
      some (true, [], false) := by decide

/-- 43_read.md R172: 0xA5 comes out bit 7 first. -/
theorem test_read_byte :
    after (fun t => t.returned.filterMap pinBit)
      (exec (.read 2 8) { freshState cfgD with store := (Memory.erased 8).write 2 0xA5#8 }) =
      some [true, false, true, false, false, true, false, true] := by decide

/-- V20: the byte after the last one does not exist under Fail. -/
theorem test_read_past_end :
    after (fun t => (t.returned.count (.err .protocolViolation), t.log.length, t.so))
      (exec (.read 15 16) (freshState cfgB)) = some (8, 29, .low) := by decide

theorem test_wren_sets :
    after (fun t => (t.wel, t.phase, t.si, t.log.length)) (exec .wren (freshState cfgD)) =
      some (true, .deselected, .low, 12) := by decide

/-- V30: the second WriteEnable fails and the latch stays set. -/
theorem test_wren_twice :
    after (fun t => (t.wel, t.returned.getLast?)) (exec .wren (blank cfgD true)) =
      some (true, some (.err .protocolViolation)) := by decide

theorem test_chipErase :
    after (fun t => (inspectStore t, t.wel))
      (exec .chipErase { freshState cfgD with wel := true }) =
      some (List.replicate 8 0xFF#8, false) := by decide

/-- S3b: without the latch the eighth clock fails and the chip stays in CommandPhase. -/
theorem test_chipErase_without_latch :
    after (fun t => (t.phase, t.ir, t.irCount, t.returned.contains (.err .notWriteEnabled)))
      (exec .chipErase (freshState cfgD)) = some (.command, 0x60#8, 1, true) := by decide

/-- S6: 0xFF leaves `ir` at 0xFE with one bit to come. -/
theorem test_unknownOpcode :
    after (fun t => (t.phase, t.ir, t.irCount, t.si))
      (exec (.unknownOpcode 0xFF#8) (freshState cfgD)) =
      some (.command, 0xFE#8, 1, .high) := by decide

theorem test_unknownOpcode_reported :
    after (fun t => (t.returned.contains (.err (.unknownOpcode 0xFF#8)), t.log.length))
      (exec (.unknownOpcode 0xFF#8) (freshState cfgD)) = some (true, 9) := by decide

/-- V2. -/
theorem test_ce_selects :
    after (fun t => (t.phase, t.ce, t.ir, t.irCount, t.log)) (exec .ce (freshState cfgD)) =
      some (.command, .low, 0x00#8, 8, [.enableToggle]) := by decide

/-- V3: no command can be ended before its opcode is complete. -/
theorem test_ce_mid_opcode :
    after (fun t => (t.phase, t.irCount, t.returned))
      (exec .ce (inCommand cfgD 0x00#8 5 .low)) =
      some (.command, 5, [.err .protocolViolation]) := by decide

/-- V4. -/
theorem test_si_deselected :
    after (fun t => (t.si, t.log, t.returned)) (exec .si (freshState cfgD)) =
      some (.low, [], [.err .protocolViolation]) := by decide

/-- S5: two input toggles in a row. -/
theorem test_si_twice :
    after (fun t => (t.si, t.returned))
      (exec .si { inCommand cfgD 0x00#8 8 .high with log := [.enableToggle, .inputToggle] }) =
      some (.high, [.err .protocolViolation]) := by decide

/-- V5. -/
theorem test_clk_deselected :
    after (fun t => (t.log, t.returned)) (exec .clk (freshState cfgD)) =
      some ([], [.err .protocolViolation]) := by decide

/-- V7: the first bit lands in bit 7. -/
theorem test_clk_first_bit :
    after (fun t => (t.ir, t.irCount)) (exec .clk (inCommand cfgD 0x00#8 8 .high)) =
      some (0x80#8, 7) := by decide

/-- V9. -/
theorem test_wait :
    exec .waitForWrite (freshState cfgD) =
      .next { freshState cfgD with log := [.waitForWrite], returned := [.ok] } := rfl

/-- V1. -/
theorem test_getChipEnable :
    after State.returned (exec .getChipEnable (freshState cfgD)) = some [.pin .high] := by decide

/-- V1. -/
theorem test_getSerialInput :
    after State.returned (exec .getSerialInput (freshState cfgD)) = some [.pin .low] := by decide

/-- V1. -/
theorem test_getSerialOutput :
    after State.returned (exec .getSerialOutput (freshState cfgD)) = some [.pin .low] := by decide

/-- A word placed by withFetchWord is what the next step runs. -/
theorem test_placed_word :
    after (fun t => (t.wel, t.input)) (step (State.reset.withFetchWord 8 0x06)) =
      some (true, []) := by decide

/-- 42_address_phase.md R153: the address cannot be read before its last bit. -/
theorem test_resolvedAddress :
    resolvedAddress cfgD { value := 5, count := 3 } = .error .protocolViolation ∧
      resolvedAddress cfgD { value := 5, count := 4 } = .ok 5 := by decide

/-! ## Witnesses: the hypotheses of each statement can be met -/

theorem witness_ConstructionStartsAtReset :
    cfgB.Legal ∧ cfgD.Legal ∧ ¬cfgBad.Legal ∧ ¬({ cfgD with addrBits := 0 } : Config).Legal ∧
      ¬({ cfgD with wbufCap := 0 } : Config).Legal ∧
      ({ addrBits := 1, capacity := 1, wbufCap := 1, endPolicy := .wrap } : Config).Legal := by
  decide

theorem witness_IllegalConfigurationIsRefused : ¬(freshState cfgBad).cfg.Legal := by decide

theorem witness_NothingHappensWithoutARequest :
    (freshState cfgD).cfg.Legal ∧ (freshState cfgD).input = [] := by decide

/-- One queue for each clause. -/
theorem witness_StepRunsTheDecodedInstruction :
    (∀ r : Request, ({ freshState cfgD with input := [r] } : State).input = r :: []) ∧
      decode cfgD (Request.event .enableToggle).code = .ok .ce ∧
      decode cfgD (Request.getter .serialOutput).code = .ok .getSerialOutput ∧
      decode cfgD (Request.frame [true]).code = .error .opcodeIncomplete :=
  ⟨fun _ => rfl, by decide, by decide, by decide⟩

theorem witness_PlacedWordRunsNext :
    State.reset.cfg = Config.default ∧ decodeTableWord 8 0x60 = some .chipErase := by decide

theorem witness_DispatchTableHasFourOpcodes :
    ∃ b : Byte, b ≠ 0x02#8 ∧ b ≠ 0x03#8 ∧ b ≠ 0x06#8 ∧ b ≠ 0x60#8 := ⟨0x61#8, by decide⟩

/-- The largest address, a full buffer, the longest partial byte. -/
theorem witness_DecodeOfEncodeIsTheInstruction :
    Instr.wellFormed cfgD (.write 15 (List.replicate 8 0x5A#8) []) = true ∧
      Instr.wellFormed cfgD (.write 15 (List.replicate 7 0x5A#8) (List.replicate 7 true)) = true ∧
      Instr.wellFormed cfgD (.read 15 0) = true ∧
      Instr.wellFormed cfgD (.unknownOpcode 0x07#8) = true ∧
      Instr.wellFormed cfgD .wren = true := by decide

/-- A Write of no data, a Read of no data clocks, and a frame of the other kind. -/
theorem witness_DecodedFrameEncodesBack :
    decodeFrame cfgD [false, false, false, false, false, false, true, false, true, true, true,
        true] = .ok (.write 15 [] []) ∧
      decodeFrame cfgD [false, false, false, false, false, false, true, true, true, true, true,
        true] = .ok (.read 15 0) ∧
      decodeFrame cfgD [false, false, false, false, false, true, true, false] = .ok .wren := by
  decide

theorem witness_ChipEnableSelectsDeselectedChip :
    (freshState cfgD).cfg.Legal ∧ (freshState cfgD).phase = .deselected := by decide

theorem witness_ChipEnableMidOpcodeFails :
    (inCommand cfgD 0x00#8 8 .low).cfg.Legal ∧ (inCommand cfgD 0x00#8 8 .low).phase = .command := by
  decide

/-- One state for each of the three cases. -/
theorem witness_SerialInputToggleFlipsOrFails :
    (freshState cfgD).cfg.Legal ∧ (freshState cfgD).phase = .deselected ∧
      ({ inCommand cfgD 0x00#8 8 .high with log := [.enableToggle, .inputToggle] } : State).log.getLast? =
        some .inputToggle ∧
      ({ inCommand cfgD 0x00#8 8 .high with log := [.enableToggle] } : State).log.getLast? ≠
        some .inputToggle := by decide

theorem witness_WaitOnlyLogs : (freshState cfgB).cfg.Legal := by decide

theorem witness_GettersReturnThePins : (freshState cfgB).cfg.Legal := by decide

theorem witness_ClockWhileDeselectedFails :
    (freshState cfgB).cfg.Legal ∧ (freshState cfgB).phase = .deselected := by decide

/-- The first clock, the last but one, and the eighth clock with each outcome. -/
theorem witness_CommandClockShiftsAndDispatches :
    (inCommand cfgB 0x00#8 8 .low).cfg.Legal ∧ (inCommand cfgB 0x00#8 8 .low).phase = .command ∧
      1 < (inCommand cfgB 0x00#8 8 .low).irCount ∧ (inCommand cfgB 0x00#8 8 .low).irCount ≤ 8 ∧
      1 < (inCommand cfgB 0x00#8 2 .low).irCount ∧ (inCommand cfgB 0x02#8 1 .low).irCount = 1 ∧
      setBit 0x02#8 0 (bitOf .high) = 0x03#8 ∧ setBit 0x06#8 0 (bitOf .low) = 0x06#8 ∧
      setBit 0x02#8 0 (bitOf .low) = 0x02#8 ∧ setBit 0x60#8 0 (bitOf .low) = 0x60#8 ∧
      setBit 0xFE#8 0 (bitOf .high) = 0xFF#8 := by decide

/-- The first address clock of each, the last one, and an accumulator about to be complete. -/
theorem witness_AddressClockAccumulates :
    (inOperation cfgB 0x03#8 false (.read { acc := { value := 0, count := 0 }, nout := 0 })).cfg.Legal ∧
      (0 < cfgB.addrBits ∧ 7 < cfgB.addrBits) ∧
      (inOperation cfgB 0x03#8 false (.read { acc := { value := 0, count := 0 }, nout := 0 })).op =
        some (.read { acc := { value := 0, count := 0 }, nout := 0 }) ∧
      (inOperation cfgB 0x02#8 true (.write { writing 127 0 with acc := { value := 127, count := 7 } })).op =
        some (.write { writing 127 0 with acc := { value := 127, count := 7 } }) ∧
      (127 < 2 ^ 7 ∧ 7 < cfgB.addrBits) := by decide

/-- Under each policy; the last index, and the first one past it. -/
theorem witness_DestinationFollowsEndPolicy :
    cfgD.Legal ∧ cfgD.endPolicy = .wrap ∧ cfgB.Legal ∧ cfgB.endPolicy = .fail ∧
      15 + 0 < cfgB.capacity ∧ cfgB.capacity ≤ 15 + 1 ∧ dest cfgD 7 1 = .ok 0 := by decide

/-- The last byte of the store, and the byte after it. -/
theorem witness_ReadClockDrivesSerialOutput :
    (inOperation cfgB 0x03#8 false (.read (reading 15 0))).cfg.Legal ∧
      (inOperation cfgB 0x03#8 false (.read (reading 15 0))).phase = .operation ∧
      (inOperation cfgB 0x03#8 false (.read (reading 15 0))).op = some (.read (reading 15 0)) ∧
      cfgB.addrBits ≤ (reading 15 0).acc.count ∧ dest cfgB 15 (7 / 8) = .ok 15 ∧
      dest cfgB 15 (8 / 8) = .error .protocolViolation := by decide

/-- A later bit of a byte, a full buffer, the end of the store, a byte that is not erased, and one
that is. -/
theorem witness_WriteClockBuffersOrFails :
    (inOperation cfgB 0x02#8 true (.write (writing 15 0))).cfg.Legal ∧
      (inOperation cfgB 0x02#8 true (.write (writing 15 0))).phase = .operation ∧
      (inOperation cfgB 0x02#8 true (.write (writing 15 0))).op = some (.write (writing 15 0)) ∧
      cfgB.addrBits ≤ (writing 15 0).acc.count ∧ (writing 15 7).nin % 8 ≠ 0 ∧
      ((writing 0 16).nin % 8 = 0 ∧ cfgB.wbufCap ≤ (writing 0 16).nin / 8) ∧
      ((writing 15 8).nin % 8 = 0 ∧ (writing 15 8).nin / 8 < cfgB.wbufCap ∧
        dest cfgB 15 ((writing 15 8).nin / 8) = .error .protocolViolation) ∧
      dest cfgB 15 ((writing 15 0).nin / 8) = .ok 15 ∧
      (freshState cfgB).store.read 15 ≠ 0xFF#8 ∧ (blank cfgB true).store.read 15 = 0xFF#8 := by
  decide

theorem witness_OpcodeOnlyCommandsRejectClocks :
    (inOperation cfgB 0x06#8 false .writeEnable).cfg.Legal ∧
      (inOperation cfgB 0x06#8 false .writeEnable).phase = .operation ∧
      (inOperation cfgB 0x06#8 false .writeEnable).op = some .writeEnable ∧
      (inOperation cfgB 0x60#8 true .chipErase).op = some .chipErase := by decide

theorem witness_EndDuringAddressDeselects :
    cfgB.Legal ∧
      (inOperation cfgB 0x03#8 false (.read { acc := { value := 0, count := 7 }, nout := 0 })).phase =
        .operation ∧
      (inOperation cfgB 0x03#8 false (.read { acc := { value := 0, count := 7 }, nout := 0 })).op =
        some (.read { acc := { value := 0, count := 7 }, nout := 0 }) ∧ 7 < cfgB.addrBits ∧
      (inOperation cfgB 0x02#8 true (.write { writing 0 0 with acc := { value := 0, count := 0 } })).op =
        some (.write { writing 0 0 with acc := { value := 0, count := 0 } }) := by decide

theorem witness_EndOfReadDeselects :
    (inOperation cfgB 0x03#8 false (.read (reading 0 5))).cfg.Legal ∧
      (inOperation cfgB 0x03#8 false (.read (reading 0 5))).phase = .operation ∧
      (inOperation cfgB 0x03#8 false (.read (reading 0 5))).op = some (.read (reading 0 5)) ∧
      cfgB.addrBits ≤ (reading 0 5).acc.count := by decide

theorem witness_EndOfWriteEnableSetsLatch :
    (inOperation cfgB 0x06#8 false .writeEnable).cfg.Legal ∧
      (inOperation cfgB 0x06#8 false .writeEnable).phase = .operation ∧
      (inOperation cfgB 0x06#8 false .writeEnable).op = some .writeEnable := by decide

theorem witness_EndOfChipEraseSetsEveryByte :
    (inOperation cfgB 0x60#8 true .chipErase).cfg.Legal ∧
      (inOperation cfgB 0x60#8 true .chipErase).phase = .operation ∧
      (inOperation cfgB 0x60#8 true .chipErase).op = some .chipErase ∧ 15 < cfgB.capacity := by
  decide

/-- Two complete bytes and none; a Write that was aborted. -/
theorem witness_EndOfWriteCommitsCompleteBytes :
    (inOperation cfgB 0x02#8 true (.write (writing 14 16))).Inv ∧
      (inOperation cfgB 0x02#8 true (.write (writing 14 16))).phase = .operation ∧
      (inOperation cfgB 0x02#8 true (.write (writing 14 16))).op = some (.write (writing 14 16)) ∧
      cfgB.addrBits ≤ (writing 14 16).acc.count ∧ 1 < (writing 14 16).nin / 8 ∧
      (inOperation cfgB 0x02#8 true (.write { writing 14 0 with aborted := true })).Inv := by decide

theorem witness_WrenCommandSetsLatch :
    (freshState cfgB).cfg.Legal ∧ (freshState cfgB).phase = .deselected := by decide

theorem witness_ChipEraseCommandErasesTheStore :
    (blank cfgB true).cfg.Legal ∧ (blank cfgB true).phase = .deselected ∧
      (blank cfgB true).wel = true := by decide

/-- A full buffer up to the last byte of the store. -/
theorem witness_WriteCommandProgramsTheBytes :
    (blank cfgB true).cfg.Legal ∧ (blank cfgB true).store.wf = true ∧
      (blank cfgB true).phase = .deselected ∧ (blank cfgB true).wel = true ∧
      Instr.wellFormed cfgB (.write 14 [0x11#8, 0x22#8] []) = true ∧
      (∀ k, 8 * k < 8 * [0x11#8, 0x22#8].length + ([] : List Bool).length →
        ∃ i, dest cfgB 14 k = .ok i ∧ (blank cfgB true).store.read i = 0xFF#8) := by
  refine ⟨by decide, by decide, rfl, rfl, by decide, fun k hk => ⟨14 + k, ?_⟩⟩
  have : k = 0 ∨ k = 1 := by simp at hk; omega
  rcases this with rfl | rfl <;> decide

theorem witness_WriteCommandOverProgrammedByteCommitsNothing :
    cfgB.Legal ∧ ({ freshState cfgB with wel := true } : State).phase = .deselected ∧
      Instr.wellFormed cfgB (.write 15 [0x11#8] []) = true ∧ 0 < [0x11#8].length ∧
      (∀ l, l < 0 → ∃ j, dest cfgB 15 l = .ok j ∧ (freshState cfgB).store.read j = 0xFF#8) ∧
      dest cfgB 15 0 = .ok 15 ∧ (freshState cfgB).store.read 15 ≠ 0xFF#8 := by
  refine ⟨by decide, rfl, by decide, by decide, fun l hl => absurd hl (by omega), by decide,
    by decide⟩

/-- Up to the last bit of the last byte. -/
theorem witness_ReadCommandStreamsTheBytes :
    (freshState cfgB).cfg.Legal ∧ (freshState cfgB).phase = .deselected ∧
      Instr.wellFormed cfgB (.read 15 8) = true ∧
      (cfgB.endPolicy = .fail → ∀ k, 8 * k < 8 → 15 + k < cfgB.capacity) := by
  refine ⟨by decide, rfl, by decide, fun _ k hk => ?_⟩
  show 15 + k < 16
  omega

theorem witness_UnknownOpcodeCommandStaysInCommandPhase :
    (freshState cfgB).cfg.Legal ∧ (freshState cfgB).phase = .deselected ∧
      Instr.wellFormed cfgB (.unknownOpcode 0x00#8) = true := by decide

/-- A ChipErase, and a Write whose data bits are clocked after the error. -/
theorem witness_DestructiveCommandNeedsLatch :
    (freshState cfgB).cfg.Legal ∧ (freshState cfgB).phase = .deselected ∧
      (freshState cfgB).wel = false ∧
      ((∃ addr data tail, Instr.chipErase = .write addr data tail) ∨
        Instr.chipErase = .chipErase) ∧
      ((∃ addr data tail, Instr.write 3 [0x11#8] [true] = .write addr data tail) ∨
        Instr.write 3 [0x11#8] [true] = .chipErase) :=
  ⟨by decide, rfl, rfl, .inr rfl, .inl ⟨3, [0x11#8], [true], rfl⟩⟩

theorem witness_CommandIsItsHostActions :
    (freshState cfgB).cfg.Legal ∧
      ∃ t, conduct [.event .enableToggle, .getter .chipEnable] (freshState cfgB) = .next t :=
  ⟨by decide, _, rfl⟩

theorem witness_ConstructionSatisfiesTheInvariant :
    construct cfgB = some (freshState cfgB) := by decide

/-- The invariant holds at reset and inside a Write. -/
theorem witness_StepKeepsTheInvariant :
    State.reset.Inv ∧ ({ inOperation cfgB 0x02#8 true (.write (writing 14 8)) with
        input := [.event .clockPulse] } : State).Inv ∧
      ∃ t, step { inOperation cfgB 0x02#8 true (.write (writing 14 8)) with
        input := [.event .clockPulse] } = .next t := ⟨by decide, by decide, _, rfl⟩

theorem witness_InvariantStatesNeverStop :
    (inOperation cfgB 0x02#8 true (.write (writing 14 8))).Inv ∧
      (inCommand cfgB 0xFE#8 1 .low).Inv := by decide

theorem witness_StepKeepsPinsFollowingTheLog :
    ({ inCommand cfgB 0x00#8 8 .high with
        log := [.enableToggle, .inputToggle], input := [.event .clockPulse] } : State).Inv ∧
      ({ inCommand cfgB 0x00#8 8 .high with
        log := [.enableToggle, .inputToggle], input := [.event .clockPulse] } : State).PinsFollowLog ∧
      ∃ t, step { inCommand cfgB 0x00#8 8 .high with
        log := [.enableToggle, .inputToggle], input := [.event .clockPulse] } = .next t :=
  ⟨by decide, by decide, _, rfl⟩

theorem witness_StepKeepsConfigurationAndTakesOneRequest :
    ∃ t, step { freshState cfgB with input := [.event .enableToggle, .event .clockPulse] } = .next t := ⟨_, rfl⟩

theorem witness_OnlyACommandEndWritesTheStore :
    ({ inOperation cfgB 0x60#8 true .chipErase with store := [] } : State).Inv ∧
      ∃ r t, act (.event .enableToggle)
          { inOperation cfgB 0x60#8 true .chipErase with store := [] } = .done r t ∧
        t.store ≠ [] := ⟨by decide, _, _, rfl, by decide⟩

theorem witness_OnlyACommandEndWritesTheLatch :
    ∃ r t, act (.event .enableToggle) (inOperation cfgB 0x06#8 false .writeEnable) = .done r t ∧
      t.wel ≠ false := ⟨_, _, rfl, by decide⟩

theorem witness_OnlyAReadClockDrivesSerialOutput :
    ∃ r t, act (.event .clockPulse) (inOperation cfgB 0x03#8 false (.read (reading 15 7))) =
        .done r t ∧ t.so ≠ .low := ⟨_, _, rfl, by decide⟩

theorem witness_OperationClockStaysInOperationPhase :
    (inOperation cfgB 0x06#8 false .writeEnable).phase = .operation ∧
      ∃ r t, opOnClock (inOperation cfgB 0x06#8 false .writeEnable) = .done r t :=
  ⟨rfl, _, _, rfl⟩

/-- An action rolled back, a failing command end, and a NonErasedWrite. -/
theorem witness_FailedActionRollsBack :
    (∃ e t, act (.event .clockPulse) (freshState cfgB) = .done (.err e) t) ∧
      (∃ e t, act (.event .enableToggle) (inOperation cfgB 0x06#8 true .writeEnable) =
        .done (.err e) t) ∧
      ∃ e t, act (.event .clockPulse)
        { inOperation cfgB 0x02#8 true (.write (writing 15 0)) with store := [] } =
          .done (.err e) t := ⟨⟨_, _, rfl⟩, ⟨_, _, rfl⟩, ⟨_, _, rfl⟩⟩

/-- An action that is logged, one that is not, and a getter. -/
theorem witness_LogGrowsByTheActionPerformed :
    (∃ t, act (.event .waitForWrite) (freshState cfgB) = .done .ok t) ∧
      (∃ e t, act (.event .clockPulse) (freshState cfgB) = .done (.err e) t) ∧
      ∃ r t, act (.getter .serialOutput) (freshState cfgB) = .done r t :=
  ⟨⟨_, rfl⟩, ⟨_, _, rfl⟩, ⟨_, _, rfl⟩⟩

theorem witness_ProgrammingOnlyClearsBits :
    (inOperation cfgB 0x02#8 true (.write (writing 14 16))).Inv ∧
      (inOperation cfgB 0x02#8 true (.write (writing 14 16))).phase = .operation ∧
      (inOperation cfgB 0x02#8 true (.write (writing 14 16))).op = some (.write (writing 14 16)) ∧
      ∃ t, exec .ce (inOperation cfgB 0x02#8 true (.write (writing 14 16))) = .next t :=
  ⟨by decide, rfl, rfl, _, rfl⟩

theorem witness_ErasingIsWritingEveryByte :
    0 < 16 ∧ (Memory.write [] 15 0x11#8).wf = true ∧
      (Memory.write [] 15 0x11#8).within 16 = true := by decide

/-- A run with an event the log keeps and one that failed. -/
theorem witness_ReplayReproducesTheState :
    ∃ s, runsTo cfgB [.clockPulse, .enableToggle] [.err .protocolViolation, .ok] s :=
  ⟨_, by decide, rfl⟩

theorem witness_StuckInstanceStaysStuck : (inCommand cfgB 0xFE#8 1 .low).StuckInstance := by decide

theorem witness_SerializationRoundTrips :
    deserialize ['w', 'w', 'e', 'e'] =
      .ok [.waitForWrite, .waitForWrite, .enableToggle, .enableToggle] := by decide

theorem witness_DeserializeFailsAtTheFirstForeignCharacter : eventOfChar '\n' = none := by decide

/-- The last two bytes of the store, under Fail. -/
theorem witness_ProgrammedBytesAreReadBack :
    (freshState cfgB).cfg.Legal ∧ (freshState cfgB).phase = .deselected ∧
      (freshState cfgB).wel = false ∧ 14 < 2 ^ cfgB.addrBits ∧
      [0x11#8, 0x22#8].length ≤ cfgB.wbufCap ∧
      (cfgB.endPolicy = .fail → ∀ k, k < [0x11#8, 0x22#8].length → 14 + k < cfgB.capacity) := by
  refine ⟨by decide, rfl, rfl, by decide, by decide, fun _ k hk => ?_⟩
  show 14 + k < 16
  simp at hk
  omega

theorem witness_FreshInstanceCannotBeProgrammed :
    construct cfgB = some (freshState cfgB) ∧ [0x11#8] ≠ [] ∧
      Instr.wellFormed cfgB (.write 15 [0x11#8] []) = true ∧
      (cfgB.endPolicy = .fail → 15 < cfgB.capacity) := by decide

/-- A step that answers; a string that loads, and one that raises the error at its `x`. -/
theorem witness_OnlyDeserializeRaisesInvalidSerialization :
    (∃ t, exec .ce (freshState cfgB) = .next t) ∧
      (∃ t, step { freshState cfgB with input := [.event .enableToggle] } = .next t) ∧
      (∃ t, loadProgram ['e', 'c'] (freshState cfgB) = .done .ok t ∧
        t.input = [.event .enableToggle, .event .clockPulse]) ∧
      loadProgram ['e', 'x'] (freshState cfgB) =
        .done (.err (.invalidSerialization 'x')) (freshState cfgB) :=
  ⟨⟨_, rfl⟩, ⟨_, rfl⟩, ⟨_, rfl, rfl⟩, rfl⟩

end Sys2Proof.Tests
end

section
/-! The opcode dispatch table (30_encoding.md R82, R83). -/

namespace Sys2Proof

/-- Settles O6. The four hits are the lookup of each command's own opcode; a byte that is none of
the four is the opcode of no command, whatever its bits. -/
theorem dispatchTableHasFourOpcodes : Obligations.DispatchTableHasFourOpcodes := by
  refine ⟨lookupOpcode_opcode .write, lookupOpcode_opcode .read,
    lookupOpcode_opcode .writeEnable, lookupOpcode_opcode .chipErase, ?_⟩
  intro b hwrite hread hwren herase
  refine lookupOpcode_eq_none.mpr fun c => ?_
  cases c with
  | write => exact hwrite
  | read => exact hread
  | writeEnable => exact hwren
  | chipErase => exact herase

end Sys2Proof
end

section
/-! The pin interface: chip enable and clock, phase by phase (40_pin_interface.md R105, R110,
R112). -/

namespace Sys2Proof.Machine

/-- An instruction that is one host action answers what that action answers, and returns its
result. -/
theorem exec_of_single_act {i : Instr} {a : HostAction} {s t : State} {r : Result}
    (hc : s.cfg.Legal) (hi : actionsOf i s = [a]) (h : act a s = .done r t) :
    exec i s = .next { t with returned := [r] } := by
  rw [exec_eq, hi]
  exact conduct_single hc h

/-- Logging keeps the result of an answer, and the phase of its state. -/
theorem logged_done_phase (e : Event) (r : Result) (t : State) :
    ∃ u, logged e (.done r t) = .done r u ∧ u.phase = t.phase := by
  cases r with
  | ok => exact ⟨t.append e, rfl, append_phase t e⟩
  | err _ => exact ⟨t, rfl, rfl⟩
  | pin _ => exact ⟨t, rfl, rfl⟩

/-- The cases of a clock in the two other phases are excluded; no other case writes the phase. -/
theorem clock_keeps_operation_phase {s t : State} {r : Result} (hp : s.phase = .operation)
    (h : act (.event .clockPulse) s = .done r t) : t.phase = .operation := by
  cases acts_of_act h with
  | clockDeselected hd => cases hp.symm.trans hd
  | opcodeBit hm | opcodeUnknown hm | opcodeNotEnabled hm | opcode hm => cases hp.symm.trans hm
  | readAddress | readPast | readData => exact hp
  | writeAddress | writeFull | writePast | writeNonErased | writeData => exact hp
  | opcodeOnlyClock => exact hp

/-- The handler's state has the phase of the action's, which differs from it by at most the log. -/
theorem opOnClock_keeps_operation_phase {s t : State} {r : Result} (hp : s.phase = .operation)
    (h : opOnClock s = .done r t) : t.phase = .operation := by
  obtain ⟨u, hu, huphase⟩ := logged_done_phase .clockPulse r t
  have hact : act (.event .clockPulse) s = .done r u := by rw [clock_operation hp, h, hu]
  exact huphase.symm.trans (clock_keeps_operation_phase hp hact)

/-- Settles O43: R112, for the handler alone and for the action that calls and logs it. -/
theorem operationClockStaysInOperationPhase : Obligations.OperationClockStaysInOperationPhase := by
  intro s hp
  refine ⟨clock_operation hp, fun r t h => ?_⟩
  rcases h with hhandler | haction
  · exact opOnClock_keeps_operation_phase hp hhandler
  · exact clock_keeps_operation_phase hp haction

/-- Settles O10: the action answers `select s`, which is the state R105 writes out. -/
theorem chipEnableSelectsDeselectedChip : Obligations.ChipEnableSelectsDeselectedChip :=
  fun _ hc hp => exec_of_single_act hc rfl (enable_deselected hp)

/-- Settles O15: the action raises ProtocolViolation in the state as it is (R110). -/
theorem clockWhileDeselectedFails : Obligations.ClockWhileDeselectedFails :=
  fun _ hc hp => exec_of_single_act hc rfl (clock_deselected hp)

end Sys2Proof.Machine
end

section
/-! The command decoder: the clocks of CommandPhase (41_command_decode.md R130, R131). -/

namespace Sys2Proof.Machine

/-- A clock instruction ends in the state of its case of `Acts`, and returns the case's result. -/
theorem exec_clk_of_acts {s t : State} {r : Result} (hc : s.cfg.Legal)
    (h : Acts (.event .clockPulse) s r t) : exec .clk s = .next { t with returned := [r] } :=
  exec_of_single_act hc rfl (act_of_acts hc h)

/-- The eighth clock writes bit 0 and leaves no bit to come (R130). -/
theorem shiftOpcode_last {s : State} (h1 : s.irCount = 1) :
    shiftOpcode s = { s with ir := setBit s.ir 0 (bitOf s.si), irCount := 0 } := by
  simp [shiftOpcode, h1]

section EighthClock

variable {s : State} {b : Byte} (hc : s.cfg.Legal) (hp : s.phase = .command) (h1 : s.irCount = 1)
  (hb : b = setBit s.ir 0 (bitOf s.si))

include h1 hb in
theorem shiftOpcode_last_ir : (shiftOpcode s).ir = b := by
  rw [shiftOpcode_last h1, hb]

include hc hp h1 hb

/-- A command that the latch allows is created with its initial transient state (R131). -/
theorem exec_clk_eighth_allowed {c : Command} (hl : lookupOpcode b = some c)
    (hw : latchAllows s c = true) :
    exec .clk s = .next
      { s with
        ir := b, irCount := 0, phase := .operation, op := some (newOperation s.cfg c)
        log := s.log ++ [.clockPulse], returned := [.ok] } := by
  have hir := shiftOpcode_last_ir h1 hb
  rw [exec_clk_of_acts hc (.opcode hp h1 (by rw [hir, hl]) hw), shiftOpcode_last h1, hb]
  rfl

/-- A command that needs the latch is turned away while it is clear (R131, R132). -/
theorem exec_clk_eighth_notEnabled {c : Command} (hl : lookupOpcode b = some c)
    (hw : latchAllows s c = false) :
    exec .clk s = .next { s with returned := [.err .notWriteEnabled] } := by
  have hir := shiftOpcode_last_ir h1 hb
  exact exec_clk_of_acts hc (.opcodeNotEnabled hp h1 (by rw [hir, hl]) hw)

/-- A command that needs the latch: created if it is set, turned away if it is clear (R132). -/
theorem exec_clk_eighth_needsLatch {c : Command} (hl : lookupOpcode b = some c)
    (hn : needsLatch c = true) :
    exec .clk s = .next
      (if s.wel then
        { s with
          ir := b, irCount := 0, phase := .operation, op := some (newOperation s.cfg c)
          log := s.log ++ [.clockPulse], returned := [.ok] }
      else { s with returned := [.err .notWriteEnabled] }) := by
  have hallows : latchAllows s c = s.wel := by simp [latchAllows, hn]
  split
  · next hw => exact exec_clk_eighth_allowed hc hp h1 hb hl (hallows.trans hw)
  · next hw =>
    exact exec_clk_eighth_notEnabled hc hp h1 hb hl (hallows.trans (eq_false_of_ne_true hw))

/-- A byte outside the dispatch table is reported (R131). -/
theorem exec_clk_eighth_unknown (hl : lookupOpcode b = none) :
    exec .clk s = .next { s with returned := [.err (.unknownOpcode b)] } := by
  have hir := shiftOpcode_last_ir h1 hb
  rw [exec_clk_of_acts hc (.opcodeUnknown hp h1 (by rw [hir, hl])), hir]

end EighthClock

/-- Settles O16. A clock with more bits to come is the shift of R130; the eighth one is split by the
row of the dispatch table that the completed byte is in (R131), at whose opcode the comparisons of
the statement evaluate. -/
theorem commandClockShiftsAndDispatches : Obligations.CommandClockShiftsAndDispatches := by
  intro s hc hp hpos h8
  refine ⟨setBit_getLsbD s.ir (by omega) _,
    fun hmore => exec_clk_of_acts hc (.opcodeBit hp hmore h8), fun h1 b hb => ?_⟩
  cases hl : lookupOpcode b with
  | none =>
    have hne := lookupOpcode_eq_none.mp hl
    have hread : b ≠ 0x03#8 := hne .read
    have hwren : b ≠ 0x06#8 := hne .writeEnable
    have hwrite : b ≠ 0x02#8 := hne .write
    have herase : b ≠ 0x60#8 := hne .chipErase
    rw [if_neg hread, if_neg hwren, if_neg hwrite, if_neg herase]
    exact exec_clk_eighth_unknown hc hp h1 hb hl
  | some c =>
    obtain rfl := opcode_of_lookup hl
    cases c with
    | read => exact exec_clk_eighth_allowed hc hp h1 hb hl rfl
    | writeEnable => exact exec_clk_eighth_allowed hc hp h1 hb hl rfl
    | write => exact exec_clk_eighth_needsLatch hc hp h1 hb hl rfl
    | chipErase => exact exec_clk_eighth_needsLatch hc hp h1 hb hl rfl

end Sys2Proof.Machine
end

section
/-! The address phase that Read and Write share: its clocks (42_address_phase.md R151). -/

namespace Sys2Proof.Machine

/-- Settles O17. Each of the two operations has its own case of `Acts`, and `clockedAddr` is the
accumulator R151 writes out. The modulus drops nothing because a value that fits its count of bits
still fits with one bit more, and an incomplete address has room for that bit. -/
theorem addressClockAccumulates : Obligations.AddressClockAccumulates := by
  intro s hc hp
  refine ⟨fun r hop hincomplete => exec_clk_of_acts hc (.readAddress hp hop hincomplete),
    fun w hop hincomplete => exec_clk_of_acts hc (.writeAddress hp hop hincomplete),
    fun a b hfits hincomplete => ?_⟩
  calc 2 * a.value + b.toNat = Nat.bit b a.value := (Nat.bit_val b a.value).symm
    _ < 2 ^ (a.count + 1) := Nat.bit_lt_two_pow_succ_iff.mpr hfits
    _ ≤ 2 ^ s.cfg.addrBits := Nat.pow_le_pow_right Nat.two_pos hincomplete

end Sys2Proof.Machine
end

section
/-! WriteEnable and ChipErase: the clocks they reject (45_write_enable.md R222, 46_chip_erase.md
R232). -/

namespace Sys2Proof.Machine

/-- Settles O21: a clock during either operation has the one case `Acts.opcodeOnlyClock`, which
ends in the state it began in, operation and log included (R222, R232). -/
theorem opcodeOnlyCommandsRejectClocks : Obligations.OpcodeOnlyCommandsRejectClocks :=
  fun _ hc hp hop => exec_clk_of_acts hc (.opcodeOnlyClock hp hop)

end Sys2Proof.Machine
end

section
/-! ChipErase: the chip-enable toggle that ends it (46_chip_erase.md R231). -/

namespace Sys2Proof.Machine

/-- Settles O25. The toggle has the one case `Acts.endChipErase`, whose state is the erased one,
deselected; its store is R231's, which reads 0xFF at every index below the capacity. -/
theorem endOfChipEraseSetsEveryByte : Obligations.EndOfChipEraseSetsEveryByte := by
  intro s hc hp hop
  have hend := act_of_acts hc (.endChipErase hp hop)
  exact ⟨_, exec_of_single_act hc rfl hend, rfl, fun _ hi => Memory.read_erased hi⟩

end Sys2Proof.Machine
end

section
/-! Command frames: decoding what encoding gives, and back (30_encoding.md sections 1, 3 and 5). -/

namespace Sys2Proof

/-! ## The opcode in front of a frame -/

theorem bitsByte_take_opcode (op : Byte) (rest : List Bool) :
    bitsByte ((byteBits op ++ rest).take 8) = op := by
  rw [List.take_left' (byteBits_length op), bitsByte_byteBits]

theorem drop_opcode (op : Byte) (rest : List Bool) : (byteBits op ++ rest).drop 8 = rest :=
  List.drop_left' (byteBits_length op)

/-- Eight or more bits are the bits of the byte they begin with, and the rest. -/
theorem byteBits_take_append_drop {bits : List Bool} (h : 8 ≤ bits.length) :
    byteBits (bitsByte (bits.take 8)) ++ bits.drop 8 = bits := by
  rw [byteBits_bitsByte (List.length_take_of_le h), List.take_append_drop]

/-! ## What decodeFrame answers, one lemma per row of the dispatch table -/

section Rows

variable {c : Config} {rest : List Bool}

theorem decodeFrame_write (h : c.addrBits ≤ rest.length) :
    decodeFrame c (byteBits Command.write.opcode ++ rest) =
      .ok (.write (bitsNat (rest.take c.addrBits)) (splitBytes (rest.drop c.addrBits)).1
        (splitBytes (rest.drop c.addrBits)).2) := by
  have hlen : ¬(byteBits Command.write.opcode ++ rest).length < 8 := by simp
  simp only [decodeFrame, if_neg hlen, bitsByte_take_opcode, drop_opcode, lookupOpcode_opcode,
    if_neg (Nat.not_lt.mpr h)]

theorem decodeFrame_read (h : c.addrBits ≤ rest.length) :
    decodeFrame c (byteBits Command.read.opcode ++ rest) =
      .ok (.read (bitsNat (rest.take c.addrBits)) (rest.length - c.addrBits)) := by
  have hlen : ¬(byteBits Command.read.opcode ++ rest).length < 8 := by simp
  simp only [decodeFrame, if_neg hlen, bitsByte_take_opcode, drop_opcode, lookupOpcode_opcode,
    if_neg (Nat.not_lt.mpr h)]

theorem decodeFrame_wren : decodeFrame c (byteBits Command.writeEnable.opcode) = .ok .wren := rfl

theorem decodeFrame_chipErase :
    decodeFrame c (byteBits Command.chipErase.opcode) = .ok .chipErase := rfl

theorem decodeFrame_unknown {op : Byte} (h : lookupOpcode op = none) :
    decodeFrame c (byteBits op) = .ok (.unknownOpcode op) := by
  have htake := bitsByte_take_opcode op []
  have hdrop := drop_opcode op []
  rw [List.append_nil] at htake hdrop
  have hlen : ¬(byteBits op).length < 8 := by simp
  simp only [decodeFrame, if_neg hlen, htake, hdrop, h, if_pos]

/-- EVERY FRAME THAT DECODES is of one of the formats of 30_encoding.md R81: its opcode, and what
follows it. -/
theorem decodeFrame_ok {bits : List Bool} {i : Instr} (h : decodeFrame c bits = .ok i) :
    ∃ op rest, bits = byteBits op ++ rest ∧
      ((op = Command.write.opcode ∧ c.addrBits ≤ rest.length ∧
          i = .write (bitsNat (rest.take c.addrBits)) (splitBytes (rest.drop c.addrBits)).1
            (splitBytes (rest.drop c.addrBits)).2) ∨
        (op = Command.read.opcode ∧ c.addrBits ≤ rest.length ∧
          i = .read (bitsNat (rest.take c.addrBits)) (rest.length - c.addrBits)) ∨
        (op = Command.writeEnable.opcode ∧ rest = [] ∧ i = .wren) ∨
        (op = Command.chipErase.opcode ∧ rest = [] ∧ i = .chipErase) ∨
        (rest = [] ∧ i = .unknownOpcode op)) := by
  unfold decodeFrame at h
  split at h
  · cases h
  · next hlen =>
    refine ⟨_, _, (byteBits_take_append_drop (Nat.not_lt.mp hlen)).symm, ?_⟩
    generalize bitsByte (bits.take 8) = op at h ⊢
    generalize bits.drop 8 = rest at h ⊢
    cases hl : lookupOpcode op with
    | none =>
      simp only [hl] at h
      split at h
      · next hr => cases h; exact .inr (.inr (.inr (.inr ⟨hr, rfl⟩)))
      · cases h
    | some cmd =>
      obtain rfl := opcode_of_lookup hl
      cases cmd with
      | write =>
        simp only [hl] at h
        split at h
        · cases h
        · next ha => cases h; exact .inl ⟨rfl, Nat.not_lt.mp ha, rfl⟩
      | read =>
        simp only [hl] at h
        split at h
        · cases h
        · next ha => cases h; exact .inr (.inl ⟨rfl, Nat.not_lt.mp ha, rfl⟩)
      | writeEnable =>
        simp only [hl] at h
        split at h
        · next hr => cases h; exact .inr (.inr (.inl ⟨rfl, hr, rfl⟩))
        · cases h
      | chipErase =>
        simp only [hl] at h
        split at h
        · next hr => cases h; exact .inr (.inr (.inr (.inl ⟨rfl, hr, rfl⟩)))
        · cases h

end Rows

/-! ## The round trip -/

/-- The address that `ADDR_BITS` bits spell is what those bits were made of. -/
theorem bitsNat_take_address {n addr : Nat} (h : addr < 2 ^ n) (rest : List Bool) :
    bitsNat ((natBits n addr ++ rest).take n) = addr := by
  rw [List.take_left' (natBits_length n addr), bitsNat_natBits, Nat.mod_eq_of_lt h]

theorem drop_address (n addr : Nat) (rest : List Bool) : (natBits n addr ++ rest).drop n = rest :=
  List.drop_left' (natBits_length n addr)

/-- The first `n` bits of a sequence are the bits of the address they spell. -/
theorem natBits_bitsNat_take {n : Nat} {rest : List Bool} (h : n ≤ rest.length) :
    natBits n (bitsNat (rest.take n)) = rest.take n := by
  have hbits := natBits_bitsNat (rest.take n)
  rwa [List.length_take_of_le h] at hbits

theorem bitsNat_take_lt {n : Nat} {rest : List Bool} (h : n ≤ rest.length) :
    bitsNat (rest.take n) < 2 ^ n := by
  have hlt := bitsNat_lt (rest.take n)
  rwa [List.length_take_of_le h] at hlt

/-- A well-formed unknown opcode is in no row of the dispatch table. -/
theorem lookupOpcode_of_wellFormed_unknown {c : Config} {op : Byte}
    (h : (Instr.unknownOpcode op).wellFormed c = true) : lookupOpcode op = none := by
  refine lookupOpcode_eq_none.mpr fun cmd heq => ?_
  rw [heq] at h
  cases cmd <;> cases h

/-- Settles O8, row by row: a command's frame begins with its opcode, whose row of the dispatch
table takes the rest apart at `ADDR_BITS`; an event's character and a getter are their own rows. -/
theorem decodeOfEncodeIsTheInstruction : Obligations.DecodeOfEncodeIsTheInstruction := by
  intro c i hwf
  cases i with
  | write addr data tail =>
    simp only [Instr.wellFormed, Bool.and_eq_true, decide_eq_true_eq] at hwf
    obtain ⟨⟨haddr, htail⟩, -⟩ := hwf
    show decodeFrame c (frameBits c (.write addr data tail)) = _
    have hframe : frameBits c (.write addr data tail) =
        byteBits Command.write.opcode ++ (natBits c.addrBits addr ++ (bytesBits data ++ tail)) := by
      simp only [frameBits, List.append_assoc]
    rw [hframe, decodeFrame_write (by simp), bitsNat_take_address haddr, drop_address,
      splitBytes_bytesBits data tail htail]
  | read addr clocks =>
    have haddr : addr < 2 ^ c.addrBits := of_decide_eq_true hwf
    show decodeFrame c (frameBits c (.read addr clocks)) = _
    rw [frameBits, List.append_assoc, decodeFrame_read (by simp), bitsNat_take_address haddr]
    simp
  | wren => exact decodeFrame_wren (c := c)
  | chipErase => exact decodeFrame_chipErase (c := c)
  | unknownOpcode op => exact decodeFrame_unknown (lookupOpcode_of_wellFormed_unknown hwf)
  | ce | si | clk | waitForWrite => rfl
  | getChipEnable | getSerialInput | getSerialOutput => rfl

/-- A frame that decodes to anything but a Read is the frame of what it decodes to. -/
theorem frameBits_of_decodeFrame {c : Config} {bits : List Bool} {i : Instr}
    (h : decodeFrame c bits = .ok i) (hread : ∀ addr clocks, i ≠ .read addr clocks) :
    frameBits c i = bits := by
  obtain ⟨op, rest, rfl, ⟨rfl, ha, rfl⟩ | ⟨-, -, rfl⟩ | ⟨rfl, rfl, rfl⟩ | ⟨rfl, rfl, rfl⟩ |
    ⟨rfl, rfl⟩⟩ := decodeFrame_ok h
  · rw [Machine.frameBits_write, (bytesBits_splitBytes (rest.drop c.addrBits)).1,
      natBits_bitsNat_take ha, List.append_assoc, List.take_append_drop]
  · exact absurd rfl (hread _ _)
  · exact (List.append_nil _).symm
  · exact (List.append_nil _).symm
  · exact (List.append_nil _).symm

/-- A frame that decodes to a Read has its address, and after it as many bits as data clocks. -/
theorem frameBits_of_decodeFrame_read {c : Config} {bits : List Bool} {addr clocks : Nat}
    (h : decodeFrame c bits = .ok (.read addr clocks)) :
    frameBits c (.read addr clocks) =
        bits.take (8 + c.addrBits) ++ List.replicate clocks false ∧
      bits.length = 8 + c.addrBits + clocks ∧ addr < 2 ^ c.addrBits := by
  obtain ⟨op, rest, rfl, ⟨-, -, hi⟩ | ⟨rfl, ha, hi⟩ | ⟨-, -, hi⟩ | ⟨-, -, hi⟩ | ⟨-, hi⟩⟩ :=
    decodeFrame_ok h <;> cases hi
  have htake : (byteBits Command.read.opcode ++ rest).take (8 + c.addrBits) =
      byteBits Command.read.opcode ++ rest.take c.addrBits := by
    rw [← byteBits_length Command.read.opcode, List.take_length_add_append]
  refine ⟨?_, ?_, bitsNat_take_lt ha⟩
  · rw [frameBits, natBits_bitsNat_take ha, htake]
  · rw [List.length_append, byteBits_length]
    omega

/-- A frame that decodes to a Write has an address of `ADDR_BITS` bits and a partial byte. -/
theorem bounds_of_decodeFrame_write {c : Config} {bits : List Bool} {addr : Nat} {data : List Byte}
    {tail : List Bool} (h : decodeFrame c bits = .ok (.write addr data tail)) :
    addr < 2 ^ c.addrBits ∧ tail.length < 8 := by
  obtain ⟨op, rest, rfl, ⟨-, ha, hi⟩ | ⟨-, -, hi⟩ | ⟨-, -, hi⟩ | ⟨-, -, hi⟩ | ⟨-, hi⟩⟩ :=
    decodeFrame_ok h <;> cases hi
  exact ⟨bitsNat_take_lt ha, (bytesBits_splitBytes _).2⟩

/-- Settles O9: the formats a decoded frame can be of, each encoded again. -/
theorem decodedFrameEncodesBack : Obligations.DecodedFrameEncodesBack := by
  intro c bits i h
  refine ⟨frameBits_of_decodeFrame h, ?_, ?_, ?_⟩
  · rintro addr clocks rfl
    obtain ⟨hframe, hlen, -⟩ := frameBits_of_decodeFrame_read h
    exact ⟨hframe, hlen⟩
  · rintro addr data tail rfl
    exact bounds_of_decodeFrame_write h
  · rintro addr clocks rfl
    exact (frameBits_of_decodeFrame_read h).2.2

/-- Settles O7. Each code is closed, and the decoder evaluates to what the spec's frame formats say
of it. -/
theorem writtenOutWordsDecode : Obligations.WrittenOutWordsDecode := by
  refine ⟨?_, ?_, ?_, ?_, ?_, ?_, ?_, ?_, ?_, ?_, ?_, ?_⟩ <;> rfl

end Sys2Proof
end

section
/-! The invariant of every reachable state (10_state.md R27, R33 to R35): every host action keeps
it, so every step does. -/

namespace Sys2Proof.Machine

/-! ## What a legal configuration bounds (00_scope.md R5) -/

theorem capacity_pos {c : Config} (hc : c.Legal) : 0 < c.capacity := hc.2.1

theorem wbufCap_le_capacity {c : Config} (hc : c.Legal) : c.wbufCap ≤ c.capacity := hc.2.2.2

/-! ## What the invariant says of a state, phase by phase -/

section Phases

variable {s : State}

/-- A deselected state of the invariant (10_state.md R27). -/
theorem inv_deselected_iff (hp : s.phase = .deselected) :
    s.Inv ↔ s.cfg.Legal ∧ (s.ce = .high ∧ s.op = none ∧ s.ir = 0x00#8 ∧ s.irCount = 0) ∧
      s.store.wf = true ∧ s.store.within s.cfg.capacity = true := by
  simp [State.Inv, phaseOk, hp, and_assoc]

/-- A state of the invariant in CommandPhase (10_state.md R27). -/
theorem inv_command_iff (hp : s.phase = .command) :
    s.Inv ↔ s.cfg.Legal ∧ (s.ce = .low ∧ s.op = none ∧ 1 ≤ s.irCount ∧ s.irCount ≤ 8 ∧
        ∀ j, j < s.irCount → s.ir.getLsbD j = false) ∧
      s.store.wf = true ∧ s.store.within s.cfg.capacity = true := by
  simp [State.Inv, phaseOk, hp, unclockedClear, and_assoc]

/-- A state of the invariant in OperationPhase (10_state.md R27). -/
theorem inv_operation_iff (hp : s.phase = .operation) :
    s.Inv ↔ s.cfg.Legal ∧ (s.ce = .low ∧ s.irCount = 0 ∧ operationOk s = true) ∧
      s.store.wf = true ∧ s.store.within s.cfg.capacity = true := by
  simp [State.Inv, phaseOk, hp, and_assoc]

theorem operationOk_read_iff {r : ReadOp} (ho : s.op = some (.read r)) :
    operationOk s = true ↔ s.ir = 0x03#8 ∧ addrOk s.cfg r.acc = true ∧
      (r.acc.Incomplete s.cfg → r.nout = 0) := by
  simp only [operationOk, ho, Bool.and_eq_true, decide_eq_true_eq, and_assoc]

theorem operationOk_write_iff {w : WriteOp} (ho : s.op = some (.write w)) :
    operationOk s = true ↔ s.ir = 0x02#8 ∧ s.wel = true ∧ writeOk s w = true := by
  simp only [operationOk, ho, Bool.and_eq_true, decide_eq_true_eq, and_assoc]

theorem operationOk_writeEnable_iff (ho : s.op = some .writeEnable) :
    operationOk s = true ↔ s.ir = 0x06#8 := by
  simp only [operationOk, ho, decide_eq_true_eq]

theorem operationOk_chipErase_iff (ho : s.op = some .chipErase) :
    operationOk s = true ↔ s.ir = 0x60#8 ∧ s.wel = true := by
  simp only [operationOk, ho, Bool.and_eq_true, decide_eq_true_eq]

theorem addrOk_iff {c : Config} {a : Addr} :
    addrOk c a = true ↔ a.count ≤ c.addrBits ∧ a.value < 2 ^ a.count := by
  simp only [addrOk, Bool.and_eq_true, decide_eq_true_eq]

/-- A byte of a stream has an erased destination. -/
theorem destErased_iff {addr k : Nat} :
    destErased s addr k = true ↔ ∃ i, dest s.cfg addr k = .ok i ∧ s.store.read i = erasedByte := by
  unfold destErased
  cases dest s.cfg addr k with
  | ok i => simp [isErased]
  | error e => simp

/-- A Write's own invariant (10_state.md R35), its begun bytes spelled out. -/
theorem writeOk_iff {w : WriteOp} :
    writeOk s w = true ↔ addrOk s.cfg w.acc = true ∧ (w.acc.Incomplete s.cfg → w.nin = 0) ∧
      w.buf.length = s.cfg.wbufCap ∧ w.nin ≤ 8 * s.cfg.wbufCap ∧
      ∀ k, 8 * k < w.nin → ∃ i, dest s.cfg w.acc.value k = .ok i ∧ s.store.read i = erasedByte := by
  have hbegun : ∀ k, k < (w.nin + 7) / 8 ↔ 8 * k < w.nin := fun k => by omega
  simp only [writeOk, startedErased, Bool.and_eq_true, decide_eq_true_eq, List.all_eq_true,
    List.mem_range, hbegun, destErased_iff, and_assoc]

end Phases

/-! ## Each kind of action keeps it -/

section Actions

variable {s : State}

/-- The invariant does not mention the log. -/
theorem inv_append (h : s.Inv) (e : Event) : (s.append e).Inv := h

/-- A deselected chip satisfies the invariant as soon as its store does. -/
theorem inv_deselect (hc : s.cfg.Legal) (hwf : s.store.wf = true)
    (hin : s.store.within s.cfg.capacity = true) : (deselect s).Inv :=
  (inv_deselected_iff rfl).mpr ⟨hc, ⟨rfl, rfl, rfl, rfl⟩, hwf, hin⟩

/-- Deselecting changes neither the configuration nor the store. -/
theorem inv_deselect_of_inv (h : s.Inv) : (deselect s).Inv := by
  obtain ⟨hc, -, hwf, hin⟩ := h
  exact inv_deselect hc hwf hin

theorem inv_select (h : s.Inv) (hp : s.phase = .deselected) : (select s).Inv := by
  obtain ⟨hc, ⟨-, hop, -, -⟩, hwf, hin⟩ := (inv_deselected_iff hp).mp h
  exact (inv_command_iff rfl).mpr
    ⟨hc, ⟨rfl, hop, by simp, by simp, fun j _ => BitVec.getLsbD_zero⟩, hwf, hin⟩

/-- An opcode bit is written into the highest bit that was still clear (41_command_decode.md
R130). -/
theorem inv_shiftOpcode (h : s.Inv) (hp : s.phase = .command) (hmore : 1 < s.irCount) :
    (shiftOpcode s).Inv := by
  obtain ⟨hc, ⟨hce, hop, -, h8, hclear⟩, hwf, hin⟩ := (inv_command_iff hp).mp h
  refine (inv_command_iff (s := shiftOpcode s) hp).mpr
    ⟨hc, ⟨hce, hop, Nat.le_sub_one_of_lt hmore, (Nat.sub_le _ _).trans h8, fun j hj => ?_⟩,
      hwf, hin⟩
  rw [shiftOpcode_irCount] at hj
  rw [shiftOpcode_ir, setBit_getLsbD _ (by omega), if_neg (by omega)]
  exact hclear j (by omega)

theorem addrOk_emptyAddr (c : Config) : addrOk c emptyAddr = true :=
  addrOk_iff.mpr ⟨Nat.zero_le _, Nat.two_pow_pos _⟩

/-- One address clock keeps the accumulator within its count of bits (42_address_phase.md R151). -/
theorem addrOk_accumulate {c : Config} {a : Addr} (h : addrOk c a = true) (hi : a.Incomplete c)
    (b : Bool) : addrOk c (accumulate c a b) = true := by
  obtain ⟨-, hvalue⟩ := addrOk_iff.mp h
  refine addrOk_iff.mpr ⟨hi, ?_⟩
  calc (2 * a.value + b.toNat) % 2 ^ c.addrBits ≤ 2 * a.value + b.toNat := Nat.mod_le _ _
    _ = Nat.bit b a.value := (Nat.bit_val b a.value).symm
    _ < 2 ^ (a.count + 1) := Nat.bit_lt_two_pow_succ_iff.mpr hvalue

/-- The operation a completed opcode creates satisfies the invariant, where the latch allows it
(41_command_decode.md R131, R132). -/
theorem operationOk_newOperation {c : Command} (hir : s.ir = c.opcode)
    (hop : s.op = some (newOperation s.cfg c)) (hw : latchAllows s c = true) :
    operationOk s = true := by
  have hlatch := (latchAllows_iff s c).mp hw
  cases c with
  | read => exact (operationOk_read_iff hop).mpr ⟨hir, addrOk_emptyAddr _, fun _ => rfl⟩
  | write =>
    refine (operationOk_write_iff hop).mpr ⟨hir, hlatch rfl, writeOk_iff.mpr ?_⟩
    exact ⟨addrOk_emptyAddr _, fun _ => rfl, List.length_replicate, Nat.zero_le _,
      fun k hk => absurd hk (Nat.not_lt_zero _)⟩
  | writeEnable => exact (operationOk_writeEnable_iff hop).mpr hir
  | chipErase => exact (operationOk_chipErase_iff hop).mpr ⟨hir, hlatch rfl⟩

theorem inv_opcode {c : Command} (h : s.Inv) (hp : s.phase = .command) (h1 : s.irCount = 1)
    (hl : lookupOpcode (shiftOpcode s).ir = some c) (hw : latchAllows s c = true) :
    State.Inv
      { shiftOpcode s with op := some (newOperation s.cfg c), phase := .operation } := by
  obtain ⟨hc, ⟨hce, -⟩, hwf, hin⟩ := (inv_command_iff hp).mp h
  refine (inv_operation_iff rfl).mpr ⟨hc, ⟨hce, by simp [h1], ?_⟩, hwf, hin⟩
  exact operationOk_newOperation (c := c) (opcode_of_lookup hl) rfl hw

/-- An operation that takes the place of the active one, with an invariant of its own. -/
theorem inv_setOperation (h : s.Inv) (hp : s.phase = .operation) {p : Pin} {o : Operation}
    (hop : operationOk { s with so := p, op := some o } = true) :
    State.Inv { s with so := p, op := some o } := by
  obtain ⟨hc, ⟨hlow, hzero, -⟩, hwf, hin⟩ := (inv_operation_iff hp).mp h
  exact (inv_operation_iff (s := { s with so := p, op := some o }) hp).mpr
    ⟨hc, ⟨hlow, hzero, hop⟩, hwf, hin⟩

/-- The operation of a state of the invariant in OperationPhase. -/
theorem operationOk_of_inv (h : s.Inv) (hp : s.phase = .operation) : operationOk s = true := by
  obtain ⟨-, ⟨-, -, hop⟩, -⟩ := (inv_operation_iff hp).mp h
  exact hop

theorem writeOk_of_inv {w : WriteOp} (h : s.Inv) (hp : s.phase = .operation)
    (ho : s.op = some (.write w)) : s.ir = 0x02#8 ∧ s.wel = true ∧ writeOk s w = true :=
  (operationOk_write_iff ho).mp (operationOk_of_inv h hp)

theorem inv_readAddress {r : ReadOp} (h : s.Inv) (hp : s.phase = .operation)
    (ho : s.op = some (.read r)) (hi : r.acc.Incomplete s.cfg) :
    State.Inv { s with op := some (.read { r with acc := clockedAddr s r.acc }) } := by
  obtain ⟨hir, hacc, hnout⟩ := (operationOk_read_iff ho).mp (operationOk_of_inv h hp)
  refine inv_setOperation h hp
    ((operationOk_read_iff (r := { r with acc := clockedAddr s r.acc }) rfl).mpr ?_)
  exact ⟨hir, addrOk_accumulate hacc hi _, fun _ => hnout hi⟩

/-- A data clock of a Read moves its cursor alone, which the invariant bounds during the address
only. -/
theorem inv_readData {r : ReadOp} (h : s.Inv) (hp : s.phase = .operation)
    (ho : s.op = some (.read r)) (hi : ¬r.acc.Incomplete s.cfg) (p : Pin) :
    State.Inv { s with so := p, op := some (.read { r with nout := r.nout + 1 }) } := by
  obtain ⟨hir, hacc, -⟩ := (operationOk_read_iff ho).mp (operationOk_of_inv h hp)
  refine inv_setOperation h hp
    ((operationOk_read_iff (r := { r with nout := r.nout + 1 }) rfl).mpr ?_)
  exact ⟨hir, hacc, fun hi' => absurd hi' hi⟩

theorem inv_writeAddress {w : WriteOp} (h : s.Inv) (hp : s.phase = .operation)
    (ho : s.op = some (.write w)) (hi : w.acc.Incomplete s.cfg) :
    State.Inv { s with op := some (.write { w with acc := clockedAddr s w.acc }) } := by
  obtain ⟨hir, hwel, hok⟩ := writeOk_of_inv h hp ho
  obtain ⟨hacc, hnin, hbuf, hcap, -⟩ := writeOk_iff.mp hok
  have hzero : w.nin = 0 := hnin hi
  refine inv_setOperation h hp
    ((operationOk_write_iff rfl).mpr ⟨hir, hwel, writeOk_iff.mpr ?_⟩)
  exact ⟨addrOk_accumulate hacc hi _, fun _ => hzero, hbuf, hcap,
    fun k hk => absurd (hzero ▸ hk) (Nat.not_lt_zero _)⟩

theorem inv_writeNonErased {w : WriteOp} (h : s.Inv) (hp : s.phase = .operation)
    (ho : s.op = some (.write w)) :
    State.Inv { s with op := some (.write { w with aborted := true }) } := by
  obtain ⟨hir, hwel, hok⟩ := writeOk_of_inv h hp ho
  refine inv_setOperation h hp
    ((operationOk_write_iff (w := { w with aborted := true }) rfl).mpr ?_)
  exact ⟨hir, hwel, writeOk_iff.mpr (writeOk_iff.mp hok)⟩

/-- The first bit of a byte was checked against the buffer and the store, and the other seven bits
begin no byte (44_write.md R193). -/
theorem inv_writeData {w : WriteOp} (h : s.Inv) (hp : s.phase = .operation)
    (ho : s.op = some (.write w)) (hi : ¬w.acc.Incomplete s.cfg)
    (hb : w.nin % 8 = 0 → byteIndex w.nin < s.cfg.wbufCap ∧
      ∃ i, dest s.cfg w.acc.value (byteIndex w.nin) = .ok i ∧ i < s.cfg.capacity ∧
        s.store.read i = erasedByte) (f : Byte → Byte) :
    State.Inv { s with
      op := some (.write { w with
        buf := w.buf.modify (byteIndex w.nin) f, nin := w.nin + 1 }) } := by
  obtain ⟨hir, hwel, hok⟩ := writeOk_of_inv h hp ho
  obtain ⟨hacc, -, hbuf, hcap, hbegun⟩ := writeOk_iff.mp hok
  refine inv_setOperation h hp
    ((operationOk_write_iff rfl).mpr ⟨hir, hwel, writeOk_iff.mpr ?_⟩)
  refine ⟨hacc, fun hi' => absurd hi' hi, by simpa using hbuf, ?_, fun k hk => ?_⟩
  · by_cases h0 : w.nin % 8 = 0
    · have hroom : w.nin / 8 < s.cfg.wbufCap := (hb h0).1
      show w.nin + 1 ≤ 8 * s.cfg.wbufCap
      omega
    · show w.nin + 1 ≤ 8 * s.cfg.wbufCap
      omega
  · change 8 * k < w.nin + 1 at hk
    by_cases hold : 8 * k < w.nin
    · exact hbegun k hold
    · obtain ⟨-, i, hdest, -, herased⟩ := hb (by omega)
      have hk' : byteIndex w.nin = k := by simp only [byteIndex]; omega
      exact ⟨i, hk' ▸ hdest, herased⟩

end Actions

/-- EVERY HOST ACTION KEEPS THE INVARIANT. -/
theorem inv_act {a : HostAction} {s t : State} {r : Result} (h : s.Inv)
    (ha : act a s = .done r t) : t.Inv := by
  obtain ⟨hc, -, hwf, hin⟩ := id h
  cases acts_of_act ha with
  | getter | wait | toggleDeselected | toggleTwice | toggle | enableMidOpcode | clockDeselected =>
    exact h
  | opcodeUnknown | opcodeNotEnabled | readPast | writeFull | writePast | opcodeOnlyClock => exact h
  | select hp => exact inv_select h hp
  | endReadEarly | endRead | endWriteEarly | endWritePast | endWriteEnableTwice =>
    exact inv_deselect_of_inv h
  | endWriteAborted | endWriteEnable => exact inv_deselect hc hwf hin
  | endWrite =>
    exact inv_deselect hc (programmed_wf _ _ _ _ _ hwf) (programmed_within hc _ _ _ _ hwf hin)
  | endChipErase =>
    exact inv_deselect hc (Memory.wf_erased (capacity_pos hc)) (Memory.within_erased _)
  | opcodeBit hp hmore => exact inv_append (inv_shiftOpcode h hp hmore) _
  | opcode hp h1 hl hw => exact inv_append (inv_opcode h hp h1 hl hw) _
  | readAddress hp ho hi => exact inv_append (inv_readAddress h hp ho hi) _
  | readData hp ho hi => exact inv_append (inv_readData h hp ho hi _) _
  | writeAddress hp ho hi => exact inv_append (inv_writeAddress h hp ho hi) _
  | writeNonErased hp ho => exact inv_append (inv_writeNonErased h hp ho) _
  | writeData hp ho hi hb => exact inv_append (inv_writeData h hp ho hi hb _) _

/-- Settles O36: no host action breaks the invariant, which does not mention the host's side of the
state. -/
theorem stepKeepsTheInvariant : Obligations.StepKeepsTheInvariant :=
  fun _ _ hs h => step_induction (fun _ _ _ hinv => hinv) (fun _ _ _ _ hinv => inv_act hinv) h hs

/-- Settles O37: the invariant has what every action needs to answer. -/
theorem invariantStatesNeverStop : Obligations.InvariantStatesNeverStop :=
  fun _ hs => ⟨step_answers (answers_of_inv hs), fun i => exec_answers i (answers_of_inv hs)⟩

/-! ## Construction -/

theorem construct_of_legal {c : Config} (hc : c.Legal) : construct c = some (freshState c) :=
  if_pos hc

theorem construct_of_not_legal {c : Config} (hc : ¬c.Legal) : construct c = none := if_neg hc

theorem construct_some {c : Config} {s : State} (h : construct c = some s) :
    c.Legal ∧ s = freshState c := by
  by_cases hc : c.Legal
  · rw [construct_of_legal hc] at h
    exact ⟨hc, (Option.some.inj h).symm⟩
  · rw [construct_of_not_legal hc] at h
    cases h

/-- The default configuration is legal (00_scope.md R5). -/
theorem legal_default : Config.default.Legal := by decide

theorem freshState_default : freshState Config.default = State.reset := rfl

/-- Settles O1. -/
theorem constructionStartsAtReset : Obligations.ConstructionStartsAtReset := by
  refine ⟨fun c hc => ⟨freshState c, construct_of_legal hc, rfl, rfl, rfl, rfl, rfl, rfl, rfl,
    fun i _ => Memory.read_nil i, rfl, rfl, rfl⟩, fun c hc => construct_of_not_legal hc, ?_⟩
  have hdefault : Config.ofArguments none none none none = Config.default := by decide
  rw [constructWith, hdefault, construct_of_legal legal_default, freshState_default]

theorem inv_freshState {c : Config} (hc : c.Legal) : (freshState c).Inv :=
  (inv_deselected_iff rfl).mpr ⟨hc, ⟨rfl, rfl, rfl, rfl⟩, Memory.wf_nil, Memory.within_nil _⟩

/-- No toggle is logged yet, and both pins are at their levels after construction. -/
theorem pinsFollowLog_freshState (c : Config) : (freshState c).PinsFollowLog := by
  simp [State.PinsFollowLog, countEvent]

/-- Settles O35: construction gives a fresh state, and State.reset is the fresh state of the default
configuration. -/
theorem constructionSatisfiesTheInvariant : Obligations.ConstructionSatisfiesTheInvariant := by
  refine ⟨fun c s h => ?_, inv_freshState legal_default, pinsFollowLog_freshState Config.default⟩
  obtain ⟨hc, rfl⟩ := construct_some h
  exact ⟨inv_freshState hc, pinsFollowLog_freshState c⟩

end Sys2Proof.Machine
end

section
/-! Who may change what: the store, the latch, the pins, the log and the host's queue, each over the
cases of one host action (60_exceptions.md section 2, 40_pin_interface.md section 5). -/

namespace Sys2Proof.Machine

/-- A ChipErase holds the latch (10_state.md R30). -/
theorem wel_of_inv_chipErase {s : State} (h : s.Inv) (hp : s.phase = .operation)
    (ho : s.op = some .chipErase) : s.wel = true :=
  ((operationOk_chipErase_iff ho).mp (operationOk_of_inv h hp)).2

/-- Settles O40: of the cases of an action only the ends of a Write and of a ChipErase leave another
store, and both hold the latch by the invariant. -/
theorem onlyACommandEndWritesTheStore : Obligations.OnlyACommandEndWritesTheStore := by
  intro s t a r hs ha hne
  cases acts_of_act ha with
  | endWrite hp ho =>
    obtain ⟨-, hwel, -⟩ := writeOk_of_inv hs hp ho
    exact ⟨rfl, hp, hwel, rfl, .inl ⟨_, ho⟩⟩
  | endChipErase hp ho => exact ⟨rfl, hp, wel_of_inv_chipErase hs hp ho, rfl, .inr ho⟩
  | _ => exact absurd rfl hne

/-- Settles O41: the four cases of an action that write the latch. -/
theorem onlyACommandEndWritesTheLatch : Obligations.OnlyACommandEndWritesTheLatch := by
  intro s t a r ha hne
  cases acts_of_act ha with
  | endWriteEnable hp ho => exact ⟨rfl, hp, rfl, .inl ⟨rfl, ho⟩⟩
  | endWrite hp ho | endWriteAborted hp ho => exact ⟨rfl, hp, rfl, .inr ⟨rfl, .inl ⟨_, ho⟩⟩⟩
  | endChipErase hp ho => exact ⟨rfl, hp, rfl, .inr ⟨rfl, .inr ho⟩⟩
  | _ => exact absurd rfl hne

/-- Settles O42: the one case of an action that drives `so`. -/
theorem onlyAReadClockDrivesSerialOutput : Obligations.OnlyAReadClockDrivesSerialOutput := by
  intro s t a r ha hne
  cases acts_of_act ha with
  | readData hp ho hi => exact ⟨rfl, hp, rfl, _, ho, Nat.not_lt.mp hi⟩
  | _ => exact absurd rfl hne

/-- Settles O44. A failing end deselects, a NonErasedWrite aborts, and every other failing case ends
in the state it began in. -/
theorem failedActionRollsBack : Obligations.FailedActionRollsBack := by
  intro s t a e ha
  cases acts_of_act ha with
  | endReadEarly hp | endWriteEarly hp | endWritePast hp | endWriteEnableTwice hp =>
    exact .inr (.inl ⟨rfl, hp, rfl, rfl⟩)
  | writeNonErased hp ho => exact .inr (.inr ⟨rfl, hp, _, _, ho, rfl, rfl⟩)
  | _ => exact .inl rfl

/-- After an action the log is as before, or the action's own event is at its end. -/
theorem act_log {a : HostAction} {s t : State} {r : Result} (h : act a s = .done r t) :
    t.log = s.log ∨ ∃ e, a = .event e ∧ t.log = s.log ++ [e] := by
  cases acts_of_act h with
  | getter | toggleDeselected | toggleTwice | enableMidOpcode | clockDeselected => exact .inl rfl
  | opcodeUnknown | opcodeNotEnabled | readPast | writeFull | writePast | opcodeOnlyClock =>
    exact .inl rfl
  | _ => exact .inr ⟨_, rfl, rfl⟩

/-- A successful event is at the end of the log (40_pin_interface.md R113). -/
theorem act_log_of_ok {a : HostAction} {s t : State} (h : act a s = .done .ok t) :
    ∃ e, a = .event e ∧ t.log = s.log ++ [e] := by
  cases acts_of_act h <;> exact ⟨_, rfl, rfl⟩

/-- A getter changes nothing (40_pin_interface.md R101 to R103). -/
theorem act_getter {p : PinName} {s t : State} {r : Result}
    (h : act (.getter p) s = .done r t) : t = s := by
  cases acts_of_act h with
  | getter => rfl

/-- Settles O45. -/
theorem logGrowsByTheActionPerformed : Obligations.LogGrowsByTheActionPerformed := by
  intro s t a r ha
  refine ⟨act_log ha, ?_, ?_⟩
  · rintro rfl
    exact act_log_of_ok ha
  · rintro p rfl
    exact act_getter ha

/-! ## The pins follow the log -/

theorem countEvent_concat (e e' : Event) (log : List Event) :
    countEvent e (log ++ [e']) = countEvent e log + if e' = e then 1 else 0 := by
  simp [countEvent, List.countP_append, List.countP_cons]

/-- Chip-enable is Low exactly in CommandPhase and OperationPhase (10_state.md R27). -/
theorem ce_eq_low_iff_of_inv {s : State} (h : s.Inv) : s.ce = .low ↔ s.phase ≠ .deselected := by
  cases hp : s.phase with
  | deselected =>
    obtain ⟨-, ⟨hce, -⟩, -⟩ := (inv_deselected_iff hp).mp h
    simp [hce]
  | command =>
    obtain ⟨-, ⟨hce, -⟩, -⟩ := (inv_command_iff hp).mp h
    simp [hce]
  | operation =>
    obtain ⟨-, ⟨hce, -⟩, -⟩ := (inv_operation_iff hp).mp h
    simp [hce]

/-- Flipping a pin and logging one more toggle keeps the two in step. -/
theorem odd_succ_iff {n : Nat} {p : Prop} (h : p ↔ n % 2 = 1) : ¬p ↔ (n + 1) % 2 = 1 := by
  rw [h]
  omega

section Pins

variable {s t : State} (hs : s.PinsFollowLog)

include hs

/-- What leaves both pins and logs no toggle. -/
theorem pinsFollowLog_of_log_other {e : Event} (hce : t.ce = s.ce) (hsi : t.si = s.si)
    (hlog : t.log = s.log ++ [e]) (hne : e ≠ .enableToggle) (hni : e ≠ .inputToggle) :
    t.PinsFollowLog := by
  rw [State.PinsFollowLog, hce, hsi, hlog, countEvent_concat, countEvent_concat, if_neg hne,
    if_neg hni]
  exact hs

/-- A logged chip-enable toggle flips chip-enable. -/
theorem pinsFollowLog_of_enableToggle (hce : t.ce = .low ↔ ¬s.ce = .low) (hsi : t.si = s.si)
    (hlog : t.log = s.log ++ [.enableToggle]) : t.PinsFollowLog := by
  rw [State.PinsFollowLog, hce, hsi, hlog, countEvent_concat, countEvent_concat, if_pos rfl,
    if_neg (by decide)]
  exact ⟨odd_succ_iff hs.1, hs.2⟩

/-- A logged serial-input toggle flips serial-input. -/
theorem pinsFollowLog_of_inputToggle (hce : t.ce = s.ce) (hsi : t.si = .high ↔ ¬s.si = .high)
    (hlog : t.log = s.log ++ [.inputToggle]) : t.PinsFollowLog := by
  rw [State.PinsFollowLog, hce, hsi, hlog, countEvent_concat, countEvent_concat,
    if_neg (by decide), if_pos rfl]
  exact ⟨hs.1, odd_succ_iff hs.2⟩

end Pins

theorem toggled_eq_high_iff (p : Pin) : toggled p = .high ↔ ¬p = .high := by
  cases p <;> simp [toggled]

/-- EVERY HOST ACTION KEEPS THE PINS IN STEP WITH THE LOG, from a state of the invariant. -/
theorem pinsFollowLog_act {a : HostAction} {s t : State} {r : Result} (hinv : s.Inv)
    (hs : s.PinsFollowLog) (h : act a s = .done r t) : t.PinsFollowLog := by
  have hlow := ce_eq_low_iff_of_inv hinv
  have hselect (hp : s.phase = .deselected) : (Pin.low = .low ↔ ¬s.ce = .low) := by
    simp [hlow, hp]
  have hend (hp : s.phase = .operation) : (Pin.high = .low ↔ ¬s.ce = .low) := by
    simp [hlow, hp]
  cases acts_of_act h with
  | getter | toggleDeselected | toggleTwice | enableMidOpcode | clockDeselected => exact hs
  | opcodeUnknown | opcodeNotEnabled | readPast | writeFull | writePast | opcodeOnlyClock =>
    exact hs
  | wait | opcodeBit | opcode | readAddress | writeAddress | readData | writeNonErased
  | writeData =>
    exact pinsFollowLog_of_log_other hs rfl rfl rfl (by decide) (by decide)
  | toggle => exact pinsFollowLog_of_inputToggle hs rfl (toggled_eq_high_iff s.si) rfl
  | select hp => exact pinsFollowLog_of_enableToggle hs (hselect hp) rfl rfl
  | endReadEarly hp | endRead hp | endWriteEarly hp | endWritePast hp | endWriteAborted hp =>
    exact pinsFollowLog_of_enableToggle hs (hend hp) rfl rfl
  | endWrite hp | endWriteEnable hp | endWriteEnableTwice hp | endChipErase hp =>
    exact pinsFollowLog_of_enableToggle hs (hend hp) rfl rfl

/-- Settles O38: every action keeps the invariant and, from it, the pins' levels. -/
theorem stepKeepsPinsFollowingTheLog : Obligations.StepKeepsPinsFollowingTheLog := by
  intro s t hinv hs h
  have hboth := step_induction (P := fun u => u.Inv ∧ u.PinsFollowLog) (fun _ _ _ hu => hu)
    (fun _ _ _ _ hu ha => ⟨inv_act hu.1 ha, pinsFollowLog_act hu.1 hu.2 ha⟩) h ⟨hinv, hs⟩
  exact hboth.2

/-! ## The configuration and the host's queue -/

/-- Actions conducted as one step change no parameter and leave the queue alone. -/
theorem conduct_cfg_input {as : List HostAction} {s t : State} (h : conduct as s = .next t) :
    t.cfg = s.cfg ∧ t.input = s.input := by
  obtain ⟨-, u, hu, ht⟩ := perform_of_conduct h
  have hkept := perform_induction (P := fun v => v.cfg = s.cfg ∧ v.input = s.input)
    (fun _ _ _ _ _ hv ha => ⟨(act_cfg ha).trans hv.1, (act_input ha).trans hv.2⟩) hu ⟨rfl, rfl⟩
  rw [ht]
  exact hkept

/-- Settles O39. -/
theorem stepKeepsConfigurationAndTakesOneRequest :
    Obligations.StepKeepsConfigurationAndTakesOneRequest := by
  intro s t h
  rcases step_cases h with ⟨hinput, rfl⟩ | ⟨r, rest, as, hinput, hconduct⟩
  · exact ⟨rfl, by simp [hinput]⟩
  · obtain ⟨hcfg, hrest⟩ := conduct_cfg_input hconduct
    exact ⟨hcfg, by rw [hrest, hinput, List.tail_cons]⟩

/-! ## InvalidSerialization -/

/-- No host action returns InvalidSerialization (47_event_log.md R245). -/
theorem act_ne_invalidSerialization {a : HostAction} {s t : State} {r : Result}
    (h : act a s = .done r t) (ch : Char) : r ≠ .err (.invalidSerialization ch) := by
  cases acts_of_act h <;> exact fun heq => by cases heq

theorem conduct_reports_no_invalidSerialization {as : List HostAction} {s t : State} {ch : Char}
    (h : conduct as s = .next t) : .err (.invalidSerialization ch) ∉ t.returned := by
  obtain ⟨-, u, hu, -⟩ := perform_of_conduct h
  intro hmem
  obtain ⟨a, -, v, w, ha⟩ := result_of_perform hu hmem
  exact act_ne_invalidSerialization ha ch rfl

/-- The only error of deserialize is InvalidSerialization (47_event_log.md R243). -/
theorem deserialize_error {text : List Char} {x : Error} (h : deserialize text = .error x) :
    ∃ ch, x = .invalidSerialization ch := by
  induction text generalizing x with
  | nil => cases h
  | cons ch rest ih =>
    simp only [deserialize] at h
    split at h
    · cases h
      exact ⟨ch, rfl⟩
    · split at h
      · next hx =>
        cases h
        exact ih hx
      · cases h

/-- Loading a string: the two outcomes of deserialize (log 3). -/
theorem loadProgram_cases {text : List Char} {s t : State} {r : Result}
    (h : loadProgram text s = .done r t) :
    (∃ es, deserialize text = .ok es ∧ r = .ok ∧
        t = { s with input := s.input ++ es.map Request.event }) ∨
      ∃ ch, deserialize text = .error (.invalidSerialization ch) ∧
        r = .err (.invalidSerialization ch) ∧ t = s := by
  unfold loadProgram at h
  cases hd : deserialize text with
  | ok es =>
    rw [hd] at h
    cases h
    exact .inl ⟨es, rfl, rfl, rfl⟩
  | error x =>
    rw [hd] at h
    obtain ⟨ch, rfl⟩ := deserialize_error hd
    cases h
    exact .inr ⟨ch, rfl, rfl, rfl⟩

/-- Settles O54: an instruction and a step return what their host actions return. -/
theorem onlyDeserializeRaisesInvalidSerialization :
    Obligations.OnlyDeserializeRaisesInvalidSerialization := by
  refine ⟨fun a s t ch h => act_ne_invalidSerialization h ch rfl, fun i s t ch h => ?_,
    fun s t ch h => ?_, fun text s t r h => loadProgram_cases h⟩
  · rw [exec_eq] at h
    exact conduct_reports_no_invalidSerialization h
  · rcases step_cases h with ⟨-, rfl⟩ | ⟨r, rest, as, -, hconduct⟩
    · exact List.not_mem_nil
    · exact conduct_reports_no_invalidSerialization hconduct

/-! ## Event strings -/

theorem deserialize_serialize (es : List Event) : deserialize (serialize es) = .ok es := by
  induction es with
  | nil => rfl
  | cons e es ih => simp only [serialize, deserialize, eventOfChar_char, ih]

theorem serialize_of_deserialize {text : List Char} {es : List Event}
    (h : deserialize text = .ok es) : serialize es = text := by
  induction text generalizing es with
  | nil => cases h; rfl
  | cons ch rest ih =>
    simp only [deserialize] at h
    split at h
    · cases h
    · next e he =>
      split at h
      · cases h
      · next es' hrest =>
        cases h
        rw [serialize, ih hrest, char_of_eventOfChar he]

/-- Settles O50; serialize is injective because deserialize undoes it. -/
theorem serializationRoundTrips : Obligations.SerializationRoundTrips := by
  refine ⟨deserialize_serialize, fun _ _ => serialize_of_deserialize, fun es es' h => ?_⟩
  have hsame : Except.ok (ε := Error) es = .ok es' := by
    rw [← deserialize_serialize es, h, deserialize_serialize]
  exact Except.ok.inj hsame

/-- Settles O51, by induction on the events before the foreign character. -/
theorem deserializeFailsAtTheFirstForeignCharacter :
    Obligations.DeserializeFailsAtTheFirstForeignCharacter := by
  intro es ch rest hch
  induction es with
  | nil => simp only [serialize, List.nil_append, deserialize, hch]
  | cons e es ih => simp only [serialize, List.cons_append, deserialize, eventOfChar_char, ih]

end Sys2Proof.Machine
end

section
/-! Steps and runs: what a step runs, host actions one by one, replay, and the stuck chip
(00_scope.md section 4, 47_event_log.md, 70_reset_and_hazards.md section 3). -/

namespace Sys2Proof.Machine

/-! ## What a step runs -/

theorem conduct_of_not_legal {s : State} (hc : ¬s.cfg.Legal) (as : List HostAction) :
    conduct as s = .refused .illegalConfiguration := if_neg hc

theorem exec_of_not_legal {s : State} (hc : ¬s.cfg.Legal) (i : Instr) :
    exec i s = .refused .illegalConfiguration := by
  rw [exec_eq, conduct_of_not_legal hc]

theorem step_of_input_nil {s : State} (h : s.input = []) : step s = idle s := by
  simp only [step, nextRequest, h]

section Requests

variable {s : State} {r : Request} {rest : List Request} (h : s.input = r :: rest)

include h

theorem step_of_decode_ok {i : Instr} (hd : decode s.cfg r.code = .ok i) :
    step s = exec i { s with input := rest } := by
  simp only [step, nextRequest, h, hd]

theorem step_of_decode_error {e : DecodeError} (hd : decode s.cfg r.code = .error e) :
    step s = conduct (requestActions s.si r) { s with input := rest } := by
  simp only [step, nextRequest, h, hd, performUndecoded]

end Requests

/-- Settles O2: a step is idle, or conducts actions, and neither happens under an illegal
configuration. -/
theorem illegalConfigurationIsRefused : Obligations.IllegalConfigurationIsRefused := by
  intro s hc
  refine ⟨?_, exec_of_not_legal hc⟩
  cases hinput : s.input with
  | nil => rw [step_of_input_nil hinput, idle, if_neg hc]
  | cons r rest =>
    cases hd : decode s.cfg r.code with
    | ok i =>
      rw [step_of_decode_ok hinput hd]
      exact exec_of_not_legal (s := { s with input := rest }) hc i
    | error e =>
      rw [step_of_decode_error hinput hd]
      exact conduct_of_not_legal (s := { s with input := rest }) hc _

/-- Settles O3. -/
theorem nothingHappensWithoutARequest : Obligations.NothingHappensWithoutARequest :=
  fun _ hc hinput => (step_of_input_nil hinput).trans (if_pos hc)

/-- An event's request decodes to the event's row of the opcode table (30_encoding.md R88). -/
theorem decode_event (c : Config) (e : Event) : decode c (Request.event e).code = .ok e.instr := by
  simp only [Request.code, decode, eventOfChar_char]

/-- Settles O4. -/
theorem stepRunsTheDecodedInstruction : Obligations.StepRunsTheDecodedInstruction := by
  intro s r rest hinput
  refine ⟨fun i hd => step_of_decode_ok hinput hd, ?_, ?_, ?_⟩
  · rintro e rfl
    exact step_of_decode_ok hinput (decode_event s.cfg e)
  · rintro p rfl
    exact step_of_decode_ok hinput rfl
  · rintro bits e rfl hd
    exact step_of_decode_error hinput hd

/-- Settles O5: the word's frame is the next request, and taking it gives back the state before it
was placed. -/
theorem placedWordRunsNext : Obligations.PlacedWordRunsNext := by
  intro s nbits w i hcfg hword
  have hdecode : decode (s.withFetchWord nbits w).cfg (wordRequest s.cfg nbits w).code = .ok i := by
    rw [withFetchWord_cfg, hcfg]
    unfold decodeTableWord at hword
    split at hword
    · next i' hd =>
      cases hword
      exact hd
    · cases hword
  exact step_of_decode_ok (withFetchWord_input s nbits w) hdecode

/-! ## Host actions as one request each -/

theorem core_run_succ {s t : State} (h : step s = .next t) (k : Nat) :
    core.run (k + 1) s = core.run k t := by
  have hstep : core.step s = .next t := h
  simp only [Host.Core.run, hstep]

/-- A step on the request for one host action performs it and returns its result. -/
theorem step_hostRequest {a : HostAction} {s t : State} {r : Result} (hc : s.cfg.Legal)
    (ha : act a s = .done r t) (rest : List Request) (returned : List Result) :
    step (s.withHost (hostRequest a :: rest) returned) = .next (t.withHost rest [r]) := by
  obtain ⟨i, hdecode, hactions⟩ := decode_hostRequest s.cfg a (s.withHost rest returned)
  rw [step_of_decode_ok (s := s.withHost (hostRequest a :: rest) returned) rfl hdecode]
  have hact : act a (s.withHost rest returned) = .done r (t.withHost rest returned) := by
    rw [act_withHost, ha]
    rfl
  exact exec_of_single_act (s := s.withHost rest returned) hc hactions hact

/-- Requests for host actions, one step each, from a state whose last step returned `r`: they end
with the last result returned. -/
theorem run_hostRequests {as : List HostAction} {s u : State} {rs : List Result} (hc : s.cfg.Legal)
    (hp : perform as s = .ok (rs, u)) (rest : List Request) (r : Result) :
    core.run as.length (s.withHost (as.map hostRequest ++ rest) [r]) =
      .next (u.withHost rest ((r :: rs).drop as.length)) := by
  induction as generalizing s rs r with
  | nil => cases hp; rfl
  | cons a as ih =>
    obtain ⟨r', t, rs', ha, hrest, rfl⟩ := perform_cons_ok.mp hp
    have hstep := step_hostRequest hc ha (as.map hostRequest ++ rest) [r]
    have hlegal : t.cfg.Legal := by rw [act_cfg ha]; exact hc
    exact (core_run_succ hstep as.length).trans (ih hlegal hrest r')

/-- Settles O34: the first request takes the host's side of the state to what `run_hostRequests`
begins with. -/
theorem commandIsItsHostActions : Obligations.CommandIsItsHostActions := by
  intro as s t rest hc h
  obtain ⟨-, u, hperform, hu⟩ := perform_of_conduct h
  generalize t.returned = results at hperform hu ⊢
  subst hu
  cases as with
  | nil =>
    cases hperform
    exact ⟨s.returned, rfl, fun hne => absurd rfl hne⟩
  | cons a as =>
    obtain ⟨r, v, rs', ha, hrest, rfl⟩ := perform_cons_ok.mp hperform
    have hstep := step_hostRequest hc ha (as.map hostRequest ++ rest) s.returned
    have hlegal : v.cfg.Legal := by rw [act_cfg ha]; exact hc
    exact ⟨_, (core_run_succ hstep as.length).trans (run_hostRequests hlegal hrest rest r),
      fun _ => rfl⟩

/-! ## Replay -/

/-- An event either is logged, or fails and leaves the state as it was (60_exceptions.md R263). -/
theorem act_event_logged_or_failed {e : Event} {s t : State} {r : Result}
    (h : act (.event e) s = .done r t) :
    t.log = s.log ++ [e] ∨ (reportsError r = true ∧ t = s) := by
  cases acts_of_act h with
  | toggleDeselected | toggleTwice | enableMidOpcode | clockDeselected => exact .inr ⟨rfl, rfl⟩
  | opcodeUnknown | opcodeNotEnabled | readPast | writeFull | writePast | opcodeOnlyClock =>
    exact .inr ⟨rfl, rfl⟩
  | _ => exact .inl rfl

/-- The events a run kept, performed from the same state, end in the same state with the same
results. -/
theorem replay_kept {es : List Event} {s u : State} {rs : List Result}
    (h : replay es s = .ok (rs, u)) :
    ∃ kept : List Bool, kept.length = es.length ∧ u.log = s.log ++ picked kept es ∧
      (∀ r ∈ picked (kept.map Bool.not) rs, reportsError r = true) ∧
      replay (picked kept es) s = .ok (picked kept rs, u) := by
  induction es generalizing s rs with
  | nil =>
    cases h
    exact ⟨[], rfl, (List.append_nil _).symm, fun r hr => absurd hr List.not_mem_nil, rfl⟩
  | cons e es ih =>
    obtain ⟨r, t, rs', ha, hrest, rfl⟩ := perform_cons_ok.mp h
    obtain ⟨kept, hlen, hlog, herr, hreplay⟩ := ih hrest
    rcases act_event_logged_or_failed ha with hlogged | ⟨hfailed, rfl⟩
    · refine ⟨true :: kept, congrArg (· + 1) hlen, ?_, herr,
        perform_cons_ok.mpr ⟨r, t, picked kept rs', ha, hreplay, rfl⟩⟩
      rw [hlog, hlogged, List.append_assoc]
      rfl
    · exact ⟨false :: kept, congrArg (· + 1) hlen, hlog,
        fun r' hr' => (List.mem_cons.mp hr').elim (fun heq => heq ▸ hfailed) (herr r'), hreplay⟩

/-- Settles O48: a fresh log is empty, so the log of the run is what the run kept. -/
theorem replayReproducesTheState : Obligations.ReplayReproducesTheState := by
  rintro c es rs s ⟨-, hrun⟩
  obtain ⟨kept, hlen, hlog, herr, hreplay⟩ := replay_kept hrun
  rw [freshState_log, List.nil_append] at hlog
  exact ⟨kept, hlen, hlog, herr, by rw [hlog]; exact hreplay⟩

/-! ## The stuck chip -/

/-- A selected chip's serial-input toggle, by the log's last event (40_pin_interface.md R108). -/
theorem inputToggle_selected {s : State} (h : s.phase ≠ .deselected) :
    act (.event .inputToggle) s =
      if lastWasInput s then raise .protocolViolation s
      else succeed (State.append { s with si := toggled s.si } .inputToggle) := by
  simp only [act, actEvent, toggleSerialInput, if_neg h]

theorem completionFails_iff {s : State} {b : Bool} :
    completionFails s b = true ↔ ∀ c, lookupOpcode (setBit s.ir 0 b) = some c →
      latchAllows s c = false := by
  unfold completionFails
  cases lookupOpcode (setBit s.ir 0 b) with
  | none => simp
  | some c => simp

/-- The eighth clock of an opcode whose completion fails returns an error and changes nothing
(41_command_decode.md R133). -/
theorem clock_of_completionFails {s : State} (hp : s.phase = .command) (h1 : s.irCount = 1)
    (hf : completionFails s (bitOf s.si) = true) :
    ∃ e, act (.event .clockPulse) s = .done (.err e) s := by
  have hir := shiftOpcode_last_ir h1 rfl
  rw [clock_command hp, commandClock_last h1]
  cases hl : lookupOpcode (shiftOpcode s).ir with
  | none =>
    rw [dispatchOpcode_none hl]
    exact ⟨_, rfl⟩
  | some c =>
    have hdenied : latchAllows (shiftOpcode s) c = false :=
      completionFails_iff.mp hf c (by rw [← hir, hl])
    rw [dispatchOpcode_some hl, hdenied]
    exact ⟨_, rfl⟩

/-- Settles O49, action by action: a clock is the failing completion at the present level of `si`, a
chip-enable toggle fails in CommandPhase, and the others touch neither the register nor the
latch. -/
theorem stuckInstanceStaysStuck : Obligations.StuckInstanceStaysStuck := by
  intro s a hs
  obtain ⟨hp, h1, hfalse, htrue⟩ := id hs
  cases a with
  | getter p =>
    exact ⟨_, s, rfl, hs, rfl, rfl, fun h => h.elim (fun h => by cases h) (fun h => by cases h)⟩
  | event e =>
    cases e with
    | enableToggle => exact ⟨_, s, enable_command hp, hs, rfl, rfl, fun _ => ⟨rfl, rfl⟩⟩
    | clockPulse =>
      have hfails : completionFails s (bitOf s.si) = true := by
        cases bitOf s.si with
        | false => exact hfalse
        | true => exact htrue
      obtain ⟨x, hclock⟩ := clock_of_completionFails hp h1 hfails
      exact ⟨_, s, hclock, hs, rfl, rfl, fun _ => ⟨rfl, rfl⟩⟩
    | waitForWrite => exact ⟨_, _, rfl, hs, rfl, rfl, by simp⟩
    | inputToggle =>
      have hselected : s.phase ≠ .deselected := by rw [hp]; decide
      rw [inputToggle_selected hselected]
      split
      · exact ⟨_, s, rfl, hs, rfl, rfl, by simp⟩
      · exact ⟨_, _, rfl, hs, rfl, rfl, by simp⟩

end Sys2Proof.Machine
end

section
/-! The instructions that are one host action each, by phase and operation (40_pin_interface.md,
42_address_phase.md to 45_write_enable.md). -/

namespace Sys2Proof.Machine

/-! ## From a case of an action to its instruction -/

/-- A chip-enable instruction ends in the state of its case of `Acts`, and returns the case's
result. -/
theorem exec_ce_of_acts {s t : State} {r : Result} (hc : s.cfg.Legal)
    (h : Acts (.event .enableToggle) s r t) : exec .ce s = .next { t with returned := [r] } :=
  exec_of_single_act hc rfl (act_of_acts hc h)

theorem exec_si_of_acts {s t : State} {r : Result} (hc : s.cfg.Legal)
    (h : Acts (.event .inputToggle) s r t) : exec .si s = .next { t with returned := [r] } :=
  exec_of_single_act hc rfl (act_of_acts hc h)

/-- And an instruction that is one host action does nothing but that action. -/
theorem act_of_exec_single {i : Instr} {a : HostAction} {s t : State} (hi : actionsOf i s = [a])
    (h : exec i s = .next t) :
    ∃ r u, act a s = .done r u ∧ t = { u with returned := [r] } := by
  rw [exec_eq, hi] at h
  obtain ⟨-, u, hperform, ht⟩ := perform_of_conduct h
  obtain ⟨r, v, rs, ha, hnil, hrs⟩ := perform_cons_ok.mp hperform
  cases hnil
  exact ⟨r, u, ha, by rw [ht, hrs]⟩

theorem toggled_eq_ite (p : Pin) : toggled p = if p = .high then .low else .high := by
  cases p <;> rfl

theorem pinOf_eq_ite (b : Bool) : pinOf b = if b then .high else .low := by
  cases b <;> rfl

theorem lastWasInput_iff {s : State} :
    lastWasInput s = true ↔ s.log.getLast? = some .inputToggle := decide_eq_true_iff

/-! ## The pins -/

/-- Settles O11 (40_pin_interface.md R104). -/
theorem chipEnableMidOpcodeFails : Obligations.ChipEnableMidOpcodeFails :=
  fun _ hc hp => exec_ce_of_acts hc (.enableMidOpcode hp)

/-- Settles O12: the three cases of the action, in the order R108 checks them. -/
theorem serialInputToggleFlipsOrFails : Obligations.SerialInputToggleFlipsOrFails := by
  intro s hc
  split
  · next hp => exact exec_si_of_acts hc (.toggleDeselected hp)
  · next hp =>
    split
    · next hlast => exact exec_si_of_acts hc (.toggleTwice hp (lastWasInput_iff.mpr hlast))
    · next hlast =>
      have hfree : lastWasInput s = false := eq_false_of_ne_true (mt lastWasInput_iff.mp hlast)
      rw [exec_si_of_acts hc (.toggle hp hfree), toggled_eq_ite]
      rfl

/-- Settles O13. -/
theorem waitOnlyLogs : Obligations.WaitOnlyLogs :=
  fun s hc => exec_of_single_act hc rfl (act_of_acts hc (.wait s))

/-- Settles O14. -/
theorem gettersReturnThePins : Obligations.GettersReturnThePins := by
  intro s hc
  exact ⟨exec_of_single_act hc rfl (act_of_acts hc (.getter .chipEnable s)),
    exec_of_single_act hc rfl (act_of_acts hc (.getter .serialInput s)),
    exec_of_single_act hc rfl (act_of_acts hc (.getter .serialOutput s))⟩

/-! ## Destinations and data clocks -/

section Dest

variable {c : Config} {addr k : Nat}

theorem dest_wrap (hp : c.endPolicy = .wrap) : dest c addr k = .ok ((addr + k) % c.capacity) := by
  simp only [dest, hp]

theorem dest_fail_of_lt (hp : c.endPolicy = .fail) (h : addr + k < c.capacity) :
    dest c addr k = .ok (addr + k) := by
  simp only [dest, hp, if_pos h]

theorem dest_fail_of_le (hp : c.endPolicy = .fail) (h : c.capacity ≤ addr + k) :
    dest c addr k = .error .protocolViolation := by
  simp only [dest, hp, if_neg (Nat.not_lt.mpr h)]

end Dest

/-- Settles O18. -/
theorem destinationFollowsEndPolicy : Obligations.DestinationFollowsEndPolicy :=
  fun _ _ _ hc => ⟨dest_wrap, dest_fail_of_lt, dest_fail_of_le, fun _ h => dest_lt hc h⟩

/-- Settles O19: the two cases of a Read's data clock, by whether the byte has a destination. -/
theorem readClockDrivesSerialOutput : Obligations.ReadClockDrivesSerialOutput := by
  intro s r hc hp ho haddr
  have hcomplete : ¬r.acc.Incomplete s.cfg := Nat.not_lt.mpr haddr
  refine ⟨fun i hd => ?_, fun e hd => exec_clk_of_acts hc (.readPast hp ho hcomplete hd)⟩
  rw [exec_clk_of_acts hc (.readData hp ho hcomplete hd (dest_lt hc hd)), pinOf_eq_ite]
  rfl

/-- Settles O20: the cases of a Write's data clock in the order R193 to R196 check them. -/
theorem writeClockBuffersOrFails : Obligations.WriteClockBuffersOrFails := by
  intro s w accepted hc hp ho haddr haccepted
  have hcomplete : ¬w.acc.Incomplete s.cfg := Nat.not_lt.mpr haddr
  subst haccepted
  refine ⟨fun hmid => ?_, fun hfirst hfull => ?_, fun hfirst hroom => ⟨fun e hd => ?_,
    fun i hd => ⟨fun hprogrammed => ?_, fun herased => ?_⟩⟩⟩
  · exact exec_clk_of_acts hc (.writeData hp ho hcomplete fun hfirst => absurd hfirst hmid)
  · exact exec_clk_of_acts hc (.writeFull hp ho hcomplete hfirst hfull)
  · exact exec_clk_of_acts hc (.writePast hp ho hcomplete hfirst hroom hd)
  · exact exec_clk_of_acts hc
      (.writeNonErased hp ho hcomplete hfirst hroom hd (dest_lt hc hd) hprogrammed)
  · exact exec_clk_of_acts hc
      (.writeData hp ho hcomplete fun _ => ⟨hroom, i, hd, dest_lt hc hd, herased⟩)

/-! ## Ending a command -/

/-- Settles O22. -/
theorem endDuringAddressDeselects : Obligations.EndDuringAddressDeselects := by
  rintro s hc hp (⟨r, ho, hincomplete⟩ | ⟨w, ho, hincomplete⟩)
  · exact exec_ce_of_acts hc (.endReadEarly hp ho hincomplete)
  · exact exec_ce_of_acts hc (.endWriteEarly hp ho hincomplete)

/-- Settles O23. -/
theorem endOfReadDeselects : Obligations.EndOfReadDeselects :=
  fun _ _ hc hp ho haddr => exec_ce_of_acts hc (.endRead hp ho (Nat.not_lt.mpr haddr))

/-- Settles O24: a latch that is set stays set, since the failing end is rolled back. -/
theorem endOfWriteEnableSetsLatch : Obligations.EndOfWriteEnableSetsLatch := by
  intro s hc hp ho
  cases hw : s.wel with
  | false =>
    rw [exec_ce_of_acts hc (.endWriteEnable hp ho hw)]
    rfl
  | true =>
    rw [exec_ce_of_acts hc (.endWriteEnableTwice hp ho hw), if_pos rfl, ← hw]
    rfl

theorem filledBytes_getElem? {w : WriteOp} {k : Nat} (hk : k < w.nin / 8) :
    (filledBytes w)[k]? = w.buf[k]? := by
  rw [filledBytes, List.getElem?_take, byteIndex, if_pos hk]

section EndOfWrite

variable {s : State} {w : WriteOp} (hok : writeOk s w = true)

include hok

/-- The filled portion of the buffer has one byte per eight accepted bits (44_write.md R197). -/
theorem filledBytes_length : (filledBytes w).length = w.nin / 8 := by
  obtain ⟨-, -, hbuf, hcap, -⟩ := writeOk_iff.mp hok
  rw [filledBytes, List.length_take, hbuf, byteIndex]
  omega

/-- Each filled byte has an erased destination. -/
theorem filledBytes_dest_erased {k : Nat} (hk : k < (filledBytes w).length) :
    ∃ i, dest s.cfg w.acc.value k = .ok i ∧ s.store.read i = erasedByte := by
  obtain ⟨-, -, -, -, hbegun⟩ := writeOk_iff.mp hok
  rw [filledBytes_length hok] at hk
  exact hbegun k (by omega)

theorem filledBytes_hasDests : HasDests s.cfg w.acc.value 0 (filledBytes w).length := by
  intro j hj
  obtain ⟨i, hd, -⟩ := filledBytes_dest_erased hok hj
  exact ⟨i, by rw [Nat.zero_add]; exact hd⟩

/-- A Write holds no more bytes than the store. -/
theorem filledBytes_length_le_capacity (hc : s.cfg.Legal) :
    (filledBytes w).length ≤ s.cfg.capacity := by
  obtain ⟨-, -, -, hcap, -⟩ := writeOk_iff.mp hok
  have hbuf := wbufCap_le_capacity hc
  rw [filledBytes_length hok]
  omega

end EndOfWrite

/-- A byte that is no destination of the stream from its first byte on reads as before. -/
theorem programmed_zero_read_other {c : Config} {addr : Nat} {vs : List Byte} {m : Memory} {i : Nat}
    (hm : m.wf = true) (hne : ∀ k, k < vs.length → dest c addr k ≠ .ok i) :
    (programmed c addr 0 vs m).read i = m.read i :=
  programmed_read_other c addr vs i 0 m hm fun k hk => by rw [Nat.zero_add]; exact hne k hk

/-- Byte `k` of the stream stands at its destination. -/
theorem programmed_zero_read {c : Config} {addr : Nat} {vs : List Byte} {m : Memory} {k i : Nat}
    (hm : m.wf = true) (hlen : vs.length ≤ c.capacity) (hk : k < vs.length)
    (hd : dest c addr k = .ok i) : vs[k]? = some ((programmed c addr 0 vs m).read i) :=
  programmed_read c addr vs 0 m hm (by omega) k i hk (by rw [Nat.zero_add]; exact hd)

/-- Settles O26: the invariant gives every filled byte its destination, so the end of a Write is one
of two cases, aborted or committed. -/
theorem endOfWriteCommitsCompleteBytes : Obligations.EndOfWriteCommitsCompleteBytes := by
  intro s w hs hp ho haddr
  obtain ⟨-, -, hok⟩ := writeOk_of_inv hs hp ho
  obtain ⟨hc, -, hwf, -⟩ := hs
  have hcomplete : ¬w.acc.Incomplete s.cfg := Nat.not_lt.mpr haddr
  cases ha : w.aborted with
  | true =>
    exact ⟨_, exec_ce_of_acts hc (.endWriteAborted hp ho hcomplete ha), rfl, fun _ => rfl,
      fun hfalse => by cases hfalse⟩
  | false =>
    refine ⟨_, exec_ce_of_acts hc (.endWrite hp ho hcomplete ha (filledBytes_hasDests hok)), rfl,
      fun htrue => (by cases htrue), fun _ => ⟨fun k hk => ?_, fun i hne => ?_⟩⟩
    · have hfilled : k < (filledBytes w).length := by rw [filledBytes_length hok]; exact hk
      obtain ⟨i, hd, -⟩ := filledBytes_dest_erased hok hfilled
      rw [← filledBytes_getElem? hk]
      exact ⟨i, hd, programmed_zero_read hwf (filledBytes_length_le_capacity hok hc) hfilled hd⟩
    · exact programmed_zero_read_other hwf fun k hk =>
        hne k (by rwa [filledBytes_length hok] at hk)

/-- Programming erased bytes sets no bit (20_memory.md R70). -/
theorem programmed_and_read {c : Config} {addr : Nat} {vs : List Byte} {m : Memory}
    (hm : m.wf = true)
    (herased : ∀ k, k < vs.length → ∃ i, dest c addr k = .ok i ∧ m.read i = erasedByte) (i : Nat) :
    (programmed c addr 0 vs m).read i &&& m.read i = (programmed c addr 0 vs m).read i := by
  by_cases hdest : ∃ k, k < vs.length ∧ dest c addr k = .ok i
  · obtain ⟨k, hk, hd⟩ := hdest
    obtain ⟨i', hd', hread⟩ := herased k hk
    obtain rfl : i = i' := Except.ok.inj (hd.symm.trans hd')
    rw [hread]
    exact BitVec.and_allOnes
  · rw [programmed_zero_read_other hm fun k hk hd => hdest ⟨k, hk, hd⟩, BitVec.and_self]

/-- Settles O46: of the ends a chip-enable toggle can make of a Write only the commit leaves another
store. -/
theorem programmingOnlyClearsBits : Obligations.ProgrammingOnlyClearsBits := by
  intro s t w hs hp ho hexec i
  obtain ⟨r, u, ha, rfl⟩ := act_of_exec_single rfl hexec
  cases acts_of_act ha with
  | endWrite _ ho' =>
    obtain ⟨-, -, hok⟩ := writeOk_of_inv hs hp ho'
    obtain ⟨-, -, hwf, -⟩ := hs
    exact programmed_and_read hwf (fun k hk => filledBytes_dest_erased hok hk) i
  | endChipErase _ ho' => cases ho.symm.trans ho'
  | _ => exact BitVec.and_self

/-! ## The erased store -/

/-- Writing 0xFF at every index below `n` keeps the canonical form, and the store reads so there and
as before elsewhere. -/
theorem foldl_write_erased {m : Memory} (hm : m.wf = true) (n : Nat) :
    ((List.range n).foldl (fun m i => m.write i erasedByte) m).wf = true ∧
      ∀ j, ((List.range n).foldl (fun m i => m.write i erasedByte) m).read j =
        if j < n then erasedByte else m.read j := by
  induction n with
  | zero => exact ⟨hm, fun j => (if_neg (Nat.not_lt_zero j)).symm⟩
  | succ n ih =>
    obtain ⟨hwf, hread⟩ := ih
    rw [List.range_succ, List.foldl_append, List.foldl_cons, List.foldl_nil]
    refine ⟨Memory.wf_write hwf n erasedByte, fun j => ?_⟩
    rw [Memory.read_write hwf, hread]
    by_cases hj : j = n
    · rw [if_pos hj, if_pos (by omega)]
    · have hiff : j < n + 1 ↔ j < n := by omega
      simp only [if_neg hj, hiff]

/-- Settles O47: both stores are canonical and read the same, so they are the same list. -/
theorem erasingIsWritingEveryByte : Obligations.ErasingIsWritingEveryByte := by
  intro m n hn hm hin
  obtain ⟨hwf, hread⟩ := foldl_write_erased hm n
  refine Memory.ext_of_wf hwf (Memory.wf_erased hn) fun j => ?_
  rw [hread j]
  by_cases hj : j < n
  · rw [if_pos hj, Memory.read_erased hj]
  · have hle : n ≤ j := Nat.not_lt.mp hj
    rw [if_neg hj, Memory.read_of_within hin hle, Memory.read_erased_of_le hle]

end Sys2Proof.Machine
end

section
/-! Whole commands from Deselected: WREN, CHIP_ERASE, WRITE and READ (43_read.md to
46_chip_erase.md; a command row as one instruction is log 6). -/

namespace Sys2Proof.Machine

/-! ## A command that is one frame -/

/-- A chip deselected again after the frame `bits`, with the store `m` and the latch `b`: the pins,
the register and the log are what the frame makes them. -/
def State.afterFrame (s : State) (bits : List Bool) (m : Memory) (b : Bool) : State :=
  { s with
    store := m, wel := b, si := levelAfter s.si bits
    op := none, ir := 0x00#8, irCount := 0, ce := .high
    log := s.log ++ eventsOf (frameActions s.si bits) }

/-- Deselecting a command in progress whose end left the store `m` and the latch `b`. -/
theorem deselect_opened_eq_afterFrame {s : State} (hp : s.phase = .deselected) (c : Command)
    (o : Operation) (bits : List Bool) (m : Memory) (b : Bool) :
    deselect { s.opened c o bits with store := m, wel := b } = s.afterFrame bits m b := by
  have hdeselect := deselect_opened { s with store := m, wel := b } c o bits
  rw [State.afterFrame, ← hp] at *
  exact hdeselect

/-- A COMMAND AS ONE FRAME: its bits come to an operation, which its closing toggle ends. -/
theorem exec_frame {s : State} {i : Instr} {bits : List Bool} {c : Command} {o : Operation}
    {rs : List Result} {r : Result} {m : Memory} {b : Bool} (hc : s.cfg.Legal)
    (hp : s.phase = .deselected) (hi : actionsOf i s = frameActions s.si bits)
    (hsend : perform (send (select s).si bits) (select s) = .ok (rs, s.opened c o bits))
    (hend : Acts (.event .enableToggle) (s.opened c o bits) r
      (deselect { s.opened c o bits with store := m, wel := b })) :
    exec i s = .next { s.afterFrame bits m b with returned := .ok :: (rs ++ [r]) } := by
  have hperform := perform_frame hp hsend (act_of_acts hc hend)
  rw [exec_eq, hi, conduct_of_perform hc hperform, deselect_opened_eq_afterFrame hp]

/-- The results of a frame whose bits were all accepted. -/
theorem accepted_frame_results (level : Pin) (bits : List Bool) (r : Result) :
    .ok :: (List.replicate (send level bits).length .ok ++ [r]) =
      List.replicate ((frameActions level bits).length - 1) .ok ++ [r] := by
  rw [frameActions_length]
  rfl

theorem accepted_frame_results_ok (level : Pin) (bits : List Bool) :
    .ok :: (List.replicate (send level bits).length Result.ok ++ [.ok]) =
      List.replicate (frameActions level bits).length .ok := by
  rw [frameActions_length, List.replicate_succ, List.replicate_succ']

/-- `si` ends at the level of an opcode's last bit. -/
theorem levelAfter_byteBits (p : Pin) (op : Byte) :
    levelAfter p (byteBits op) = pinOf (op.getLsbD 0) := by
  rw [byteBits_eq, levelAfter_concat]

/-! ## WREN -/

/-- The two ends of a WriteEnable: the latch is set afterwards, and only a latch that was clear is a
success (45_write_enable.md R221). -/
theorem end_writeEnable {s : State} (hp : s.phase = .operation) (ho : s.op = some .writeEnable) :
    Acts (.event .enableToggle) s (if s.wel then .err .protocolViolation else .ok)
      (deselect { s with wel := true }) := by
  cases hw : s.wel with
  | false => exact .endWriteEnable hp ho hw
  | true =>
    have hsame : { s with wel := true } = s := by rw [← hw]
    rw [hsame]
    exact .endWriteEnableTwice hp ho hw

/-- A WriteEnable leaves the latch set; the latch does not gate its opcode (41_command_decode.md
R132). -/
theorem exec_wren {s : State} (hc : s.cfg.Legal) (hp : s.phase = .deselected) :
    exec .wren s = .next
      { s.afterFrame (byteBits 0x06#8) s.store true with
        returned :=
          List.replicate ((frameActions s.si (byteBits 0x06#8)).length - 1) .ok ++
            [if s.wel then .err .protocolViolation else .ok] } := by
  have hend := end_writeEnable (s := s.opened .writeEnable .writeEnable (byteBits 0x06#8)) rfl rfl
  rw [exec_frame (i := .wren) hc hp rfl (perform_send_opened .writeEnable rfl) hend,
    ← accepted_frame_results]
  rfl

/-- Settles O27. -/
theorem wrenCommandSetsLatch : Obligations.WrenCommandSetsLatch := by
  intro s hc hp
  rw [exec_wren hc hp, State.afterFrame, levelAfter_byteBits]
  rfl

/-! ## CHIP_ERASE -/

/-- A ChipErase with the latch set leaves the erased store (46_chip_erase.md R231). -/
theorem exec_chipErase {s : State} (hc : s.cfg.Legal) (hp : s.phase = .deselected)
    (hw : s.wel = true) :
    exec .chipErase s = .next
      { s.afterFrame (byteBits 0x60#8) (Memory.erased s.cfg.capacity) false with
        returned := List.replicate (frameActions s.si (byteBits 0x60#8)).length .ok } := by
  have hallowed : latchAllows s .chipErase = true := (latchAllows_iff s .chipErase).mpr fun _ => hw
  rw [exec_frame (i := .chipErase) hc hp rfl (perform_send_opened .chipErase hallowed)
    (.endChipErase rfl rfl), accepted_frame_results_ok]
  rfl

/-- Settles O28. -/
theorem chipEraseCommandErasesTheStore : Obligations.ChipEraseCommandErasesTheStore := by
  intro s hc hp hw
  refine ⟨_, exec_chipErase hc hp hw, ?_, fun i hi => Memory.read_erased hi⟩
  rw [State.afterFrame, levelAfter_byteBits]
  rfl

/-! ## WRITE over erased bytes -/

/-- What a well-formed Write's operands satisfy (30_encoding.md R81). -/
theorem wellFormed_write_iff {c : Config} {addr : Nat} {data : List Byte} {tail : List Bool} :
    (Instr.write addr data tail).wellFormed c = true ↔
      addr < 2 ^ c.addrBits ∧ tail.length < 8 ∧
        8 * data.length + tail.length ≤ 8 * c.wbufCap := by
  simp only [Instr.wellFormed, Bool.and_eq_true, decide_eq_true_eq, and_assoc]

/-- A Write over erased destinations programs its data (44_write.md R197). -/
theorem exec_write {s : State} {addr : Nat} {data : List Byte} {tail : List Bool} (hc : s.cfg.Legal)
    (hp : s.phase = .deselected) (hw : s.wel = true)
    (hwf : (Instr.write addr data tail).wellFormed s.cfg = true)
    (hd : ∀ k, 8 * k < 8 * data.length + tail.length →
      ∃ i, dest s.cfg addr k = .ok i ∧ s.store.read i = erasedByte) :
    exec (.write addr data tail) s = .next
      { s.afterFrame (frameBits s.cfg (.write addr data tail))
          (programmed s.cfg addr 0 data s.store) false with
        returned := List.replicate
          (frameActions s.si (frameBits s.cfg (.write addr data tail))).length .ok } := by
  obtain ⟨haddr, htail, hlen⟩ := wellFormed_write_iff.mp hwf
  have hfilled := filledBytes_filledWrite (c := s.cfg) (addr := addr) (data := data) htail
    (by omega)
  have hsend := perform_send_write (addr := addr) (bits := bytesBits data ++ tail) hc hw haddr
    (by simpa using hlen) (fun k hk => hd k (by simpa using hk))
  rw [← frameBits_write] at hsend
  have hdests : HasDests s.cfg addr 0 data.length := fun j hj => by
    obtain ⟨i, hi, -⟩ := hd j (by omega)
    exact ⟨i, by rw [Nat.zero_add]; exact hi⟩
  have hend := Acts.endWrite
    (s := s.opened .write (.write (filledWrite s.cfg addr (bytesBits data ++ tail)))
      (frameBits s.cfg (.write addr data tail)))
    rfl rfl (Nat.lt_irrefl _) rfl (by rw [hfilled]; exact hdests)
  rw [hfilled] at hend
  rw [exec_frame (i := .write addr data tail) hc hp rfl hsend hend, accepted_frame_results_ok]
  rfl

/-- Settles O29: the destinations of a Write are distinct, so each byte is read back. -/
theorem writeCommandProgramsTheBytes : Obligations.WriteCommandProgramsTheBytes := by
  intro s addr data tail hc hstore hp hw hwf hd
  obtain ⟨-, -, hlen⟩ := wellFormed_write_iff.mp hwf
  have hcap : data.length ≤ s.cfg.capacity := by
    have hbuf := wbufCap_le_capacity hc
    omega
  refine ⟨_, exec_write hc hp hw hwf hd, rfl, fun k hk => ?_, fun i hne => ?_⟩
  · obtain ⟨i, hi, -⟩ := hd k (by omega)
    exact ⟨i, hi, programmed_zero_read hstore hcap hk hi⟩
  · exact programmed_zero_read_other hstore hne

/-! ## WRITE over a byte that is not erased -/

theorem bytesBits_append (as bs : List Byte) :
    bytesBits (as ++ bs) = bytesBits as ++ bytesBits bs := by
  induction as with
  | nil => rfl
  | cons a as ih => rw [List.cons_append, bytesBits, bytesBits, ih, List.append_assoc]

/-- The bits of a Write whose byte `k` meets the first destination that is not erased: the bytes
before it are accepted, and every bit from it on is refused (44_write.md R194). -/
theorem perform_send_write_nonErased {s : State} {addr k i : Nat} {data : List Byte}
    {tail : List Bool} (hc : s.cfg.Legal) (hw : s.wel = true) (haddr : addr < 2 ^ s.cfg.addrBits)
    (hk : k < data.length) (hlen : data.length ≤ s.cfg.wbufCap)
    (hbefore : ∀ l, l < k → ∃ j, dest s.cfg addr l = .ok j ∧ s.store.read j = erasedByte)
    (hi : dest s.cfg addr k = .ok i) (hne : s.store.read i ≠ erasedByte) :
    ∃ rs w, perform (send (select s).si (frameBits s.cfg (.write addr data tail))) (select s) =
        .ok (rs, s.opened .write (.write w) (frameBits s.cfg (.write addr data tail))) ∧
      .err (.nonErasedWrite i) ∈ rs ∧ w.aborted = true ∧ w.acc.count = s.cfg.addrBits := by
  have hbits : bytesBits data ++ tail =
      bytesBits (data.take k) ++ (bytesBits (data.drop k) ++ tail) := by
    rw [← List.append_assoc, ← bytesBits_append, List.take_append_drop]
  have htake : (bytesBits (data.take k)).length = 8 * k := by
    rw [bytesBits_length, List.length_take_of_le hk.le]
  have hhead := perform_send_write (addr := addr) (bits := bytesBits (data.take k)) hc hw haddr
    (by omega) (fun l hl => hbefore l (by omega))
  have hbyte : byteIndex (8 * k) = k := Nat.mul_div_cancel_left k (by decide)
  have hrest : bytesBits (data.drop k) ++ tail ≠ [] := by
    refine List.ne_nil_of_length_pos ?_
    rw [List.length_append, bytesBits_length, List.length_drop]
    omega
  obtain ⟨rs, hrefused, hmem⟩ := perform_send_write_refused (bytesBits (data.drop k) ++ tail)
    (s.opened .write (.write (filledWrite s.cfg addr (bytesBits (data.take k))))
      ((byteBits Command.write.opcode ++ natBits s.cfg.addrBits addr) ++ bytesBits (data.take k)))
    (filledWrite s.cfg addr (bytesBits (data.take k))) i hc (ready_opened _ _ _ _) rfl rfl
    (Nat.le_refl _) (by simp only [filledWrite, htake]; omega)
    (by simp only [filledWrite, htake, hbyte]; exact hk.trans_le hlen)
    (by simp only [filledWrite, htake, hbyte]; exact hi) hne hrest
  have hall := perform_send_append hhead rfl hrefused
  rw [opened_sent, List.append_assoc, ← hbits, ← frameBits_write] at hall
  exact ⟨_, _, hall, List.mem_append_right _ hmem, rfl, rfl⟩

/-- Settles O30: the aborted Write commits nothing and clears the latch. -/
theorem writeCommandOverProgrammedByteCommitsNothing :
    Obligations.WriteCommandOverProgrammedByteCommitsNothing := by
  intro s addr data tail k i hc hp hw hwf hk hbefore hi hne
  obtain ⟨haddr, -, hlen⟩ := wellFormed_write_iff.mp hwf
  obtain ⟨rs, w, hsend, hmem, haborted, hcount⟩ := perform_send_write_nonErased (tail := tail) hc hw
    haddr hk (by omega) hbefore hi hne
  have hexec := exec_frame (i := .write addr data tail) (m := s.store) hc hp rfl hsend
    (.endWriteAborted rfl rfl (Nat.not_lt.mpr hcount.ge) haborted)
  exact ⟨_, hexec, rfl, List.mem_cons_of_mem _ (List.mem_append_left _ hmem)⟩

/-! ## READ -/

theorem eventsOf_readActions (c : Config) (level : Pin) (addr clocks : Nat) :
    eventsOf (readActions c level addr clocks) =
      .enableToggle ::
        (eventsOf (send level (byteBits Command.read.opcode ++ natBits c.addrBits addr)) ++
          (eventsOf (recv clocks) ++ [.enableToggle])) := by
  simp only [readActions, eventsOf, eventsOf_append]

/-- A READ'S DATA CLOCKS AND ITS END, from a complete address on (43_read.md R172, R173). -/
theorem perform_recv_end {s : State} {addr clocks : Nat} (hc : s.cfg.Legal)
    (hp : s.phase = .operation)
    (ho : s.op = some (.read { acc := { value := addr, count := s.cfg.addrBits }, nout := 0 }))
    (hd : ∀ t, t < clocks → ∃ i, dest s.cfg addr (byteIndex t) = .ok i) :
    perform (recv clocks ++ [.event .enableToggle]) s =
      .ok (streamResults s addr 0 clocks ++ [.ok],
        deselect
          { s with
            so := if clocks = 0 then s.so else streamLevel s addr (clocks - 1)
            log := s.log ++ eventsOf (recv clocks) }) := by
  have hdata := perform_recv clocks s _ hc hp ho (Nat.le_refl _)
    (fun t ht => by rw [Nat.zero_add]; exact hd t ht)
  rw [levelRead_zero] at hdata
  refine perform_append hdata (perform_cons_ok.mpr ⟨.ok, _, [], act_of_acts hc ?_, rfl, rfl⟩)
  exact .endRead
    (r := { acc := { value := addr, count := s.cfg.addrBits }, nout := 0 + clocks }) hp rfl
    (Nat.lt_irrefl _)

/-- Deselecting a Read in progress, whose data clocks drove `so` and were logged. -/
theorem deselect_opened_read (s : State) (o : Operation) (bits : List Bool) (p : Pin)
    (es : List Event) :
    deselect { s.opened .read o bits with so := p, log := (s.opened .read o bits).log ++ es } =
      { s with
        si := levelAfter s.si bits, so := p
        op := none, ir := 0x00#8, irCount := 0, phase := .deselected, ce := .high
        log :=
          s.log ++ .enableToggle :: (eventsOf (send s.si bits) ++ (es ++ [.enableToggle])) } := by
  simp [deselect, State.opened, State.append, State.sent, select]

/-- Settles O31: the head of the Read, then its data clocks, whose stream is that of the store the
Read began with, and its end. -/
theorem readCommandStreamsTheBytes : Obligations.ReadCommandStreamsTheBytes := by
  intro s addr clocks hc hp hwf hfail
  have haddr : addr < 2 ^ s.cfg.addrBits := of_decide_eq_true hwf
  have hdests (t : Nat) (ht : t < clocks) := dest_byteIndex hfail ht
  have hhead := perform_send_read_head (s := s) haddr
  generalize hu : s.opened .read
    (.read { acc := { value := addr, count := s.cfg.addrBits }, nout := 0 })
    (byteBits Command.read.opcode ++ natBits s.cfg.addrBits addr) = u at hhead
  have hcfg : u.cfg = s.cfg := by rw [← hu]; rfl
  have hstore : u.store = s.store := by rw [← hu]; rfl
  have hdata := perform_recv_end (s := u) (addr := addr) (clocks := clocks) (by rw [hcfg]; exact hc)
    (by rw [← hu]; rfl) (by rw [← hu]; rfl) (by rw [hcfg]; exact hdests)
  have hresults : streamResults u addr 0 clocks = streamResults s addr 0 clocks :=
    streamResults_congr hcfg hstore clocks 0 fun t ht => by rw [Nat.zero_add]; exact hdests t ht
  have hlevel : (if clocks = 0 then u.so else streamLevel u addr (clocks - 1)) =
      if clocks = 0 then s.so else streamLevel s addr (clocks - 1) := by
    split
    · rw [← hu]
      rfl
    · exact streamLevel_congr hcfg hstore (hdests (clocks - 1) (by omega))
  have hperform : perform (readActions s.cfg s.si addr clocks) s = _ :=
    perform_cons_ok.mpr ⟨_, _, _, enable_deselected hp, perform_append hhead hdata, rfl⟩
  have hexec : exec (.read addr clocks) s = _ := conduct_of_perform hc hperform
  rw [hexec, hresults, hlevel, ← hu, deselect_opened_read, eventsOf_readActions, Nat.add_comm 1,
    List.replicate_succ, List.cons_append, hp]
  rfl

end Sys2Proof.Machine
end

section
/-! Whole commands that the decoder turns away, and commands one after another
(41_command_decode.md R131 to R133, 70_reset_and_hazards.md sections 2 and 3). -/

namespace Sys2Proof.Machine

/-! ## An opcode whose last clock fails -/

/-- The chip after the first seven bits of an opcode: the bit still to come is clear. -/
def State.sevenBits (s : State) (op : Byte) : State :=
  State.sent { select s with ir := setBit op 0 false, irCount := 1 } (byteBits op).dropLast

theorem ready_sevenBits (s : State) (op : Byte) : (s.sevenBits op).Ready :=
  ready_sent (s := { select s with ir := setBit op 0 false, irCount := 1 }) (ready_select s) _

/-- AN OPCODE TURNED AWAY on its eighth clock: the first seven bits are in, the last one is only
sampled (41_command_decode.md R133). -/
theorem perform_send_opcode_rejected {s : State} {op : Byte} {e : Error}
    (hlast : act (.event .clockPulse) ((s.sevenBits op).sampled (op.getLsbD 0)) =
      .done (.err e) ((s.sevenBits op).sampled (op.getLsbD 0))) :
    perform (send (select s).si (byteBits op)) (select s) =
      .ok (List.replicate ((send s.si (byteBits op)).length - 1) .ok ++ [.err e],
        (s.sevenBits op).sampled (op.getLsbD 0)) := by
  have hseven : perform (send (select s).si (byteBits op).dropLast) (select s) =
      .ok (_, s.sevenBits op) := perform_send_seven s op
  have hall := perform_send_append hseven rfl (perform_send_one (ready_sevenBits s op) hlast)
  rw [← byteBits_eq] at hall
  have hlen : (send s.si (byteBits op)).length - 1 =
      (send s.si (byteBits op).dropLast).length +
        (toggles (s.sevenBits op).si (op.getLsbD 0)).length := by
    conv_lhs => rw [byteBits_eq, send_append, List.length_append, send_one_length]
    rfl
  rw [hall, hlen, ← List.replicate_append_replicate, List.append_assoc]

/-- The eighth clock completes the opcode (41_command_decode.md R130). -/
theorem shiftOpcode_sevenBits_ir (s : State) (op : Byte) :
    (shiftOpcode ((s.sevenBits op).sampled (op.getLsbD 0))).ir = op := by
  rw [shiftOpcode_last_ir rfl rfl]
  show setBit (setBit op 0 false) 0 (bitOf (pinOf (op.getLsbD 0))) = op
  rw [bitOf_pinOf, setBit_setBit_zero, setBit_getLsbD_zero]

/-- The eighth clock of a byte outside the table (41_command_decode.md R131). -/
theorem clock_last_unknown {s : State} {op : Byte} (hc : s.cfg.Legal)
    (hl : lookupOpcode op = none) :
    act (.event .clockPulse) ((s.sevenBits op).sampled (op.getLsbD 0)) =
      .done (.err (.unknownOpcode op)) ((s.sevenBits op).sampled (op.getLsbD 0)) := by
  have hir := shiftOpcode_sevenBits_ir s op
  rw [act_of_acts (s := (s.sevenBits op).sampled (op.getLsbD 0)) hc
    (.opcodeUnknown rfl rfl (by rw [hir, hl])), hir]

/-- The eighth clock of a command that needs the latch, without it (41_command_decode.md R132). -/
theorem clock_last_notEnabled {s : State} {c : Command} (hc : s.cfg.Legal)
    (hw : latchAllows s c = false) :
    act (.event .clockPulse) ((s.sevenBits c.opcode).sampled (c.opcode.getLsbD 0)) =
      .done (.err .notWriteEnabled) ((s.sevenBits c.opcode).sampled (c.opcode.getLsbD 0)) := by
  have hir := shiftOpcode_sevenBits_ir s c.opcode
  exact act_of_acts (s := (s.sevenBits c.opcode).sampled (c.opcode.getLsbD 0)) hc
    (.opcodeNotEnabled rfl rfl (by rw [hir, lookupOpcode_opcode]) hw)

/-- A chip whose opcode was turned away: selected, one bit to come, and neither the clock that
failed nor anything else logged since that bit was sampled. -/
theorem sevenBits_sampled (s : State) (op : Byte) :
    (s.sevenBits op).sampled (op.getLsbD 0) =
      { s with
        ce := .low, phase := .command, ir := setBit op 0 false, irCount := 1
        si := pinOf (op.getLsbD 0)
        log := s.log ++ .enableToggle :: (eventsOf (send s.si (byteBits op))).dropLast } := by
  have hevents : (eventsOf (send s.si (byteBits op))).dropLast =
      eventsOf (send s.si (byteBits op).dropLast) ++
        eventsOf (toggles (s.sevenBits op).si (op.getLsbD 0)) := by
    conv_lhs => rw [byteBits_eq, send_append, send_cons]
    rw [eventsOf_append, eventsOf_append, ← List.append_assoc]
    exact List.dropLast_concat
  rw [hevents, ← List.cons_append, ← List.append_assoc, List.append_cons]
  rfl

theorem send_byteBits_length_pos (p : Pin) (op : Byte) : 0 < (send p (byteBits op)).length := by
  rw [byteBits_eq, send_append, List.length_append, send_one_length]
  omega

/-- Settles O32: the eighth clock turns the opcode away, and so CommandPhase turns the closing
toggle away. -/
theorem unknownOpcodeCommandStaysInCommandPhase :
    Obligations.UnknownOpcodeCommandStaysInCommandPhase := by
  intro s op hc hp hwf
  have hbits := perform_send_opcode_rejected
    (clock_last_unknown hc (lookupOpcode_of_wellFormed_unknown hwf))
  have hexec : exec (.unknownOpcode op) s = _ :=
    conduct_of_perform hc (perform_frame hp hbits (enable_command rfl))
  have hpos := send_byteBits_length_pos s.si op
  have hresults : .ok :: (List.replicate ((send s.si (byteBits op)).length - 1) Result.ok ++
      [.err (.unknownOpcode op)] ++ [.err .protocolViolation]) =
      List.replicate (send s.si (byteBits op)).length .ok ++
        [.err (.unknownOpcode op), .err .protocolViolation] := by
    rw [List.append_assoc, ← List.cons_append, ← List.replicate_succ, Nat.sub_add_cancel hpos]
    rfl
  refine ⟨_, hexec, ?_⟩
  rw [hresults, sevenBits_sampled]

/-! ## A destructive command without the latch -/

/-- Bits are clocked in by clocks and serial-input toggles alone. -/
theorem mem_send {a : HostAction} {level : Pin} {bits : List Bool} (h : a ∈ send level bits) :
    a = .event .clockPulse ∨ a = .event .inputToggle := by
  induction bits generalizing level with
  | nil => cases h
  | cons b bs ih =>
    rw [send] at h
    split at h
    · rcases List.mem_cons.mp h with hclock | hrest
      · exact .inl hclock
      · exact ih hrest
    · rcases List.mem_cons.mp h with htoggle | h
      · exact .inr htoggle
      · rcases List.mem_cons.mp h with hclock | hrest
        · exact .inl hclock
        · exact ih hrest

/-- What the latch, while clear, holds a chip to from the eighth opcode clock on: it is in
CommandPhase and no last bit makes the opcode a WriteEnable's, or it is in a Read. Such a chip
cannot write the store, nor set the latch. -/
def State.Powerless (s : State) : Prop :=
  s.wel = false ∧
    ((s.phase = .command ∧ s.irCount = 1 ∧
        ∀ b, setBit s.ir 0 b ≠ Command.writeEnable.opcode) ∨
      (s.phase = .operation ∧ ∃ r, s.op = some (.read r)))

section Powerless

variable {s t : State} {r : Result} (h : s.Powerless)

include h

theorem powerless_op {o : Operation} (hp : s.phase = .operation) (ho : s.op = some o) :
    ∃ r, o = .read r := by
  obtain ⟨-, ⟨hp', -⟩ | ⟨-, r, hread⟩⟩ := h
  · cases hp.symm.trans hp'
  · exact ⟨r, Option.some.inj (ho.symm.trans hread)⟩

/-- Without the latch, the only command such a chip can complete is a Read. -/
theorem powerless_opcode {c : Command} (hp : s.phase = .command)
    (hl : lookupOpcode (shiftOpcode s).ir = some c) (hw : latchAllows s c = true) : c = .read := by
  obtain ⟨hwel, ⟨-, h1, hne⟩ | ⟨hp', -⟩⟩ := h
  · have hopcode := opcode_of_lookup hl
    rw [shiftOpcode_last_ir h1 rfl] at hopcode
    have hneeds := (latchAllows_iff s c).mp hw
    rw [hwel] at hneeds
    cases c with
    | read => rfl
    | writeEnable => exact absurd hopcode (hne _)
    | write | chipErase => cases hneeds rfl
  · cases hp.symm.trans hp'

/-- A clock keeps such a chip powerless, and its store as it is. -/
theorem powerless_clock (ha : act (.event .clockPulse) s = .done r t) :
    t.Powerless ∧ t.store = s.store := by
  cases acts_of_act ha with
  | opcodeBit hp hmore =>
    obtain ⟨-, ⟨-, h1, -⟩ | ⟨hp', -⟩⟩ := h
    · omega
    · cases hp.symm.trans hp'
  | opcode hp _ hl hw =>
    obtain rfl := powerless_opcode h hp hl hw
    exact ⟨⟨h.1, .inr ⟨rfl, _, rfl⟩⟩, rfl⟩
  | readAddress hp | readData hp => exact ⟨⟨h.1, .inr ⟨hp, _, rfl⟩⟩, rfl⟩
  | writeAddress hp ho | writeNonErased hp ho | writeData hp ho =>
    obtain ⟨_, hread⟩ := powerless_op h hp ho
    cases hread
  | _ => exact ⟨h, rfl⟩

theorem powerless_inputToggle (ha : act (.event .inputToggle) s = .done r t) :
    t.Powerless ∧ t.store = s.store := by
  cases acts_of_act ha <;> exact ⟨h, rfl⟩

/-- A chip-enable toggle leaves the store and the clear latch. -/
theorem powerless_enableToggle (ha : act (.event .enableToggle) s = .done r t) :
    t.store = s.store ∧ t.wel = false := by
  cases acts_of_act ha with
  | endWrite hp ho | endWriteAborted hp ho | endWriteEnable hp ho | endChipErase hp ho =>
    obtain ⟨_, hread⟩ := powerless_op h hp ho
    cases hread
  | _ => exact ⟨rfl, h.1⟩

/-- Bits clocked in keep such a chip powerless, and its store as it is. -/
theorem powerless_send {level : Pin} {bits : List Bool} {rs : List Result}
    (hperform : perform (send level bits) s = .ok (rs, t)) :
    t.Powerless ∧ t.store = s.store := by
  refine perform_induction (P := fun u => u.Powerless ∧ u.store = s.store) ?_ hperform ⟨h, rfl⟩
  rintro a hmem u r v ⟨hu, hstore⟩ ha
  rcases mem_send hmem with rfl | rfl
  · obtain ⟨hv, hkept⟩ := powerless_clock hu ha
    exact ⟨hv, hkept.trans hstore⟩
  · obtain ⟨hv, hkept⟩ := powerless_inputToggle hu ha
    exact ⟨hv, hkept.trans hstore⟩

end Powerless

/-- A destructive command turned away for want of the latch leaves a powerless chip. -/
theorem powerless_sevenBits_sampled {s : State} {c : Command} (hw : s.wel = false)
    (hn : needsLatch c = true) :
    ((s.sevenBits c.opcode).sampled (c.opcode.getLsbD 0)).Powerless := by
  refine ⟨hw, .inl ⟨rfl, rfl, fun b => ?_⟩⟩
  show setBit (setBit c.opcode 0 false) 0 b ≠ Command.writeEnable.opcode
  rw [setBit_setBit_zero]
  cases c with
  | write | chipErase => cases b <;> decide
  | read | writeEnable => cases hn

/-- A DESTRUCTIVE COMMAND WITHOUT THE LATCH, whatever bits follow its opcode (log 7). -/
theorem exec_destructive_without_latch {s : State} {i : Instr} {c : Command} {rest : List Bool}
    (hc : s.cfg.Legal) (hp : s.phase = .deselected) (hw : s.wel = false)
    (hn : needsLatch c = true)
    (hi : actionsOf i s = frameActions s.si (byteBits c.opcode ++ rest)) :
    ∃ t, exec i s = .next t ∧ .err .notWriteEnabled ∈ t.returned ∧ t.store = s.store ∧
      t.wel = false := by
  have hdenied : latchAllows s c = false := by simp [latchAllows, hn, hw]
  have hopcode := perform_send_opcode_rejected (clock_last_notEnabled hc hdenied)
  have hpowerless := powerless_sevenBits_sampled hw hn
  have hanswers : ((s.sevenBits c.opcode).sampled (c.opcode.getLsbD 0)).Answers :=
    ⟨hc, fun _ => ⟨Nat.le_refl 1, show 1 ≤ 8 by decide⟩, fun h => by cases h⟩
  obtain ⟨rs, u, hrest⟩ := perform_answers
    (send (levelAfter s.si (byteBits c.opcode)) rest ++ [.event .enableToggle]) _ hanswers
  obtain ⟨rs₁, rs₂, v, hsend, hend, rfl⟩ := perform_append_ok.mp hrest
  obtain ⟨r, w, rs₃, ha, hnil, rfl⟩ := perform_cons_ok.mp hend
  cases hnil
  obtain ⟨hv, hkept⟩ := powerless_send hpowerless hsend
  obtain ⟨hstore, hwel⟩ := powerless_enableToggle hv ha
  have hperform := perform_cons_ok.mpr
    ⟨_, _, _, enable_deselected hp, perform_append hopcode hrest, rfl⟩
  have hactions : actionsOf i s = .event .enableToggle ::
      (send (select s).si (byteBits c.opcode) ++
        (send (levelAfter s.si (byteBits c.opcode)) rest ++ [.event .enableToggle])) := by
    rw [hi, frameActions, send_append, List.append_assoc]
    rfl
  have hexec := conduct_of_perform hc hperform
  rw [← hactions, ← exec_eq] at hexec
  exact ⟨_, hexec, by simp, hstore.trans hkept, hwel⟩

/-- Settles O33: both rows are a destructive command's opcode, and the bits after it. -/
theorem destructiveCommandNeedsLatch : Obligations.DestructiveCommandNeedsLatch := by
  rintro s i hc hp hw (⟨addr, data, tail, rfl⟩ | rfl)
  · refine exec_destructive_without_latch (c := .write)
      (rest := natBits s.cfg.addrBits addr ++ (bytesBits data ++ tail)) hc hp hw rfl ?_
    simp only [actionsOf, frameBits, List.append_assoc]
  · refine exec_destructive_without_latch (c := .chipErase) (rest := []) hc hp hw rfl ?_
    rw [List.append_nil]
    rfl

/-! ## Commands one after another -/

section OneAfterAnother

variable {s : State} (hc : s.cfg.Legal) (hp : s.phase = .deselected)

include hc hp

/-- What WREN leaves for the next command. -/
theorem wren_leaves : ∃ t, exec .wren s = .next t ∧ t.cfg = s.cfg ∧ t.phase = .deselected ∧
    t.wel = true ∧ t.store = s.store :=
  ⟨_, exec_wren hc hp, rfl, hp, rfl, rfl⟩

variable (hw : s.wel = true)

include hw

/-- What CHIP_ERASE leaves for the next command. -/
theorem chipErase_leaves : ∃ t, exec .chipErase s = .next t ∧ t.cfg = s.cfg ∧
    t.phase = .deselected ∧ t.wel = false ∧ t.store = Memory.erased s.cfg.capacity :=
  ⟨_, exec_chipErase hc hp hw, rfl, hp, rfl, rfl⟩

/-- What a WRITE over erased destinations leaves for the next command. -/
theorem write_leaves {addr : Nat} {data : List Byte}
    (hwf : (Instr.write addr data []).wellFormed s.cfg = true)
    (hd : ∀ k, k < data.length → ∃ i, dest s.cfg addr k = .ok i ∧ s.store.read i = erasedByte) :
    ∃ t, exec (.write addr data []) s = .next t ∧ t.cfg = s.cfg ∧ t.phase = .deselected ∧
      t.wel = false ∧ t.store = programmed s.cfg addr 0 data s.store :=
  ⟨_, exec_write hc hp hw hwf fun k hk => hd k (by rw [List.length_nil] at hk; omega),
    rfl, hp, rfl, rfl⟩

end OneAfterAnother

/-- A byte has a destination under Wrap, and under Fail inside the store (20_memory.md R64). -/
theorem exists_dest {c : Config} {addr k : Nat}
    (h : c.endPolicy = .fail → addr + k < c.capacity) : ∃ i, dest c addr k = .ok i := by
  cases hp : c.endPolicy with
  | wrap => exact ⟨_, dest_wrap hp⟩
  | fail => exact ⟨_, dest_fail_of_lt hp (h hp)⟩

/-- Settles O53: the latch is set by the first command and consumed by the second, whose first byte
meets a byte that reads 0x00. -/
theorem freshInstanceCannotBeProgrammed : Obligations.FreshInstanceCannotBeProgrammed := by
  intro c s addr data tail hconstruct hdata hwf hfail
  obtain ⟨hc, rfl⟩ := construct_some hconstruct
  obtain ⟨i, hi⟩ := exists_dest (k := 0) hfail
  obtain ⟨s₁, hwren, hcfg, hp, hw, hstore⟩ := wren_leaves (s := freshState c) hc rfl
  rw [freshState_cfg] at hcfg
  rw [freshState_store] at hstore
  obtain ⟨t, hwrite, ht, hmem⟩ := writeCommandOverProgrammedByteCommitsNothing s₁ addr data tail 0 i
    (by rw [hcfg]; exact hc) hp hw (by rw [hcfg]; exact hwf) (List.length_pos_iff.mpr hdata)
    (fun l hl => absurd hl (Nat.not_lt_zero l)) (by rw [hcfg]; exact hi)
    (by rw [hstore, Memory.read_nil]; decide)
  have hwel : t.wel = false := by rw [ht]
  have hphase : t.phase = s₁.phase := by rw [ht]
  have hkept : t.store = s₁.store := by rw [ht]
  refine ⟨s₁, t, hwren, hwrite, hw, hwel, hphase.trans hp, fun j _ => ?_, i, hmem⟩
  rw [hkept, hstore, Memory.read_nil]

/-! ## What a Read returns -/

/-- The levels returned by data clocks `t`, `t + 1`, …, `n` of them. -/
theorem filterMap_pinBit_streamResults (s : State) (addr n : Nat) : ∀ t,
    (streamResults s addr t n).filterMap pinBit =
      (List.range' t n).map fun j => bitOf (streamLevel s addr j) := by
  induction n with
  | zero => intro t; rfl
  | succ n ih =>
    intro t
    rw [streamResults, List.range'_succ, List.map_cons, ← ih (t + 1)]
    rfl

/-- The eight data clocks of a byte return its bits, most significant first (20_memory.md R62). -/
theorem map_streamLevel_byte {s : State} {addr k i : Nat} (hd : dest s.cfg addr k = .ok i) :
    (List.range' (8 * k) 8).map (fun j => bitOf (streamLevel s addr j)) =
      byteBits (s.store.read i) := by
  refine List.ext_getElem (by simp) fun j hj _ => ?_
  have hj8 : j < 8 := by simpa using hj
  have hbyte : byteIndex (8 * k + j) = k := by simp only [byteIndex]; omega
  have hbit : bitIndex (8 * k + j) = 7 - j := by simp only [bitIndex]; omega
  rw [List.getElem_map, List.getElem_range', Nat.one_mul, bitsByte_getLsbD _ j hj8]
  simp only [streamLevel, hbyte, hbit, hd, bitOf_pinOf]

/-- A stream of whole bytes is the bits of what stands at their destinations. -/
theorem map_streamLevel_bytes {s : State} {addr : Nat} (data : List Byte) : ∀ k,
    (∀ j, j < data.length → ∃ i, dest s.cfg addr (k + j) = .ok i ∧
      data[j]? = some (s.store.read i)) →
    (List.range' (8 * k) (8 * data.length)).map (fun j => bitOf (streamLevel s addr j)) =
      bytesBits data := by
  induction data with
  | nil => intro k _; rfl
  | cons v vs ih =>
    intro k h
    obtain ⟨i, hi, hv⟩ := h 0 (Nat.succ_pos _)
    obtain rfl : v = s.store.read i := Option.some.inj hv
    rw [Nat.add_zero] at hi
    have hrest := ih (k + 1) fun j hj => by
      obtain ⟨i', hi', hread⟩ := h (j + 1) (Nat.succ_lt_succ hj)
      exact ⟨i', by rw [← hi']; congr 1; omega, hread⟩
    have hsplit : List.range' (8 * k) (8 * (s.store.read i :: vs).length) =
        List.range' (8 * k) 8 ++ List.range' (8 * (k + 1)) (8 * vs.length) := by
      rw [List.length_cons, Nat.mul_succ, Nat.add_comm (8 * vs.length), Nat.mul_succ]
      exact List.range'_append_1.symm
    rw [hsplit, List.map_append, map_streamLevel_byte hi, hrest, bytesBits]

/-- Settles O52, command by command: the erase makes every destination 0xFF, the Write leaves the
data there, and the Read streams it. -/
theorem programmedBytesAreReadBack : Obligations.ProgrammedBytesAreReadBack := by
  intro s addr data hc hp _ haddr hlen hfail
  have hdest (k : Nat) (hk : k < data.length) : ∃ i, dest s.cfg addr k = .ok i :=
    exists_dest fun h => hfail h k hk
  have hcap : data.length ≤ s.cfg.capacity := hlen.trans (wbufCap_le_capacity hc)
  obtain ⟨s₁, h₁, hcfg₁, hp₁, hw₁, -⟩ := wren_leaves hc hp
  obtain ⟨s₂, h₂, hcfg₂, hp₂, -, hstore₂⟩ := chipErase_leaves (by rw [hcfg₁]; exact hc) hp₁ hw₁
  rw [hcfg₁] at hcfg₂ hstore₂
  obtain ⟨s₃, h₃, hcfg₃, hp₃, hw₃, hstore₃⟩ := wren_leaves (by rw [hcfg₂]; exact hc) hp₂
  rw [hcfg₂] at hcfg₃
  rw [hstore₂] at hstore₃
  obtain ⟨s₄, h₄, hcfg₄, hp₄, hw₄, hstore₄⟩ := write_leaves (addr := addr) (data := data)
    (by rw [hcfg₃]; exact hc) hp₃ hw₃
    (wellFormed_write_iff.mpr (by rw [hcfg₃, List.length_nil]; exact ⟨haddr, by decide, by omega⟩))
    (fun k hk => by
      obtain ⟨i, hi⟩ := hdest k hk
      rw [hcfg₃, hstore₃]
      exact ⟨i, hi, Memory.read_erased (dest_lt hc hi)⟩)
  rw [hcfg₃] at hcfg₄
  rw [hcfg₃, hstore₃] at hstore₄
  have h₅ := readCommandStreamsTheBytes s₄ addr (8 * data.length) (by rw [hcfg₄]; exact hc) hp₄
    (decide_eq_true (by rw [hcfg₄]; exact haddr))
    (by rw [hcfg₄]; exact fun h k hk => hfail h k (by omega))
  refine ⟨s₁, s₂, s₃, s₄, _, h₁, h₂, h₃, h₄, h₅, hp₄, hw₄, ?_⟩
  have hstream := map_streamLevel_bytes (s := s₄) (addr := addr) data 0 fun j hj => by
    obtain ⟨i, hi⟩ := hdest j hj
    rw [Nat.zero_add, hcfg₄, hstore₄]
    exact ⟨i, hi, programmed_zero_read (Memory.wf_erased (capacity_pos hc)) hcap hj hi⟩
  show (List.replicate _ Result.ok ++
    (streamResults s₄ addr 0 _ ++ [Result.ok])).filterMap pinBit = _
  rw [List.filterMap_append, List.filterMap_append, List.filterMap_replicate_of_none rfl,
    filterMap_pinBit_streamResults]
  exact (List.append_nil _).trans hstream

end Sys2Proof.Machine
end
